-- ==== Sys2Proof/Word.lean ====
section
/-! DEFINITION. The word types of the RCDriverHAT signal block: bytes of command and response frames
(30_encoding.md R90, R101) and binary64 bit patterns (30_encoding.md R93, R98). -/

namespace Sys2Proof

/-- One byte of a command or response frame. -/
abbrev Byte := BitVec 8

/-- A binary64 value, held as its 64-bit IEEE 754 bit pattern (00_scope.md R13, 30_encoding.md R93). -/
abbrev F64 := BitVec 64

/-- A command or response frame: a finite sequence of bytes, byte 0 first (30_encoding.md R90, R101). -/
abbrev Frame := List Byte

end Sys2Proof
end

