-- ==== Sys2Proof/Config.lean ====
section
/-! DEFINITION. The implementation parameters of 00_scope.md R10, their stated test values (95_test_vectors.md,
configuration T0), the two counts the source fixes, and the one free value of the model. Which configurations are
well formed (R12) is `Sys2Proof.Machine.ConfigOk`. -/

namespace Sys2Proof

/-- `N_IN`: the number of RC input channels (00_scope.md R10). -/
abbrev nIn : Nat := 4

/-- `N_TACH`: the number of tachometer channels (00_scope.md R10). -/
abbrev nTach : Nat := 2

/-- The parameters of 00_scope.md R10 that are not fixed by the source. They are fixed before reset is released and
never change (10_state.md R39, 70_reset_and_hazards.md R252). DESIGN CHOICE (log 18): the non-negative integers are
`Nat`, so that a negative one, which R12 refuses, cannot be written. -/
structure Config where
  /-- `N_OUT` -/
  nOut : Nat
  /-- `RAW_W` -/
  rawW : Nat
  /-- `ADDR_W` -/
  addrW : Nat
  /-- `ADDR_IN_BASE` -/
  addrInBase : Nat
  /-- `ADDR_OUT_BASE` -/
  addrOutBase : Nat
  /-- `ADDR_TACH_BASE` -/
  addrTachBase : Nat
  /-- `IN_US_NUM` -/
  inUsNum : Nat
  /-- `IN_US_DEN` -/
  inUsDen : Nat
  /-- `OUT_TICK_NUM` -/
  outTickNum : Nat
  /-- `OUT_TICK_DEN` -/
  outTickDen : Nat
  /-- `PLAUS_MIN` -/
  plausMin : Nat
  /-- `PLAUS_MAX` -/
  plausMax : Nat
  /-- `LOS_TIMEOUT` -/
  losTimeout : Nat
  /-- `TPR_CFG[0..1]`: values `<= 0` are allowed (R12) -/
  tprCfg : Vector Int nTach
  /-- `W_TACH`, seconds -/
  wTach : F64
deriving DecidableEq, Repr

/-- The test values of 00_scope.md R10 (configuration T0 of 95_test_vectors.md). DESIGN CHOICE (log 2): the OPEN
parameters have no other value in the spec. -/
def Config.t0 : Config :=
  { nOut := 4, rawW := 16, addrW := 16,
    addrInBase := 0x0010, addrOutBase := 0x0020, addrTachBase := 0x0030,
    inUsNum := 1, inUsDen := 1, outTickNum := 1, outTickDen := 1,
    plausMin := 800, plausMax := 2200, losTimeout := 3,
    tprCfg := #v[20, 20], wTach := 0x3FF0000000000000 }

/-- The four binary64 operators of 00_scope.md R15. -/
inductive F64Op where
  | add | sub | mul | div
deriving DecidableEq, Repr

/-- FREE VALUE (log 11): sign and payload of the NaN that a binary64 operation produces, which the spec does not give.
No command of the block produces a NaN (42_tachometer.md R186). -/
opaque Config.nanBits : F64Op → F64 → F64 → F64

end Sys2Proof
end

