-- ==== Sys2Proof/Syntax.lean ====
section
/-! DEFINITION. The command set of the block: one constructor per row of the opcode map (30_encoding.md R100), with the
operand fields of 30_encoding.md R92. Every value of every field is an operand; the checks of channel, unit, `tpr` and
`dia` belong to the running command (30_encoding.md R105, R106). -/

namespace Sys2Proof

/-- The nine host commands (00_scope.md R3). `ch` and `unit` are u8, `v` an i8 NormalizedControl, `tpr` an i32 and
`dia` a binary64 bit pattern (30_encoding.md R92, R94 to R98). -/
inductive Instr where
  /-- READ_PWM ch (40_pwm_input.md R127) -/
  | readPwm (ch : Byte)
  /-- READ_PWMS (40_pwm_input.md R128) -/
  | readPwms
  /-- SET_PWM ch, v (41_pwm_output.md R153) -/
  | setPwm (ch : Byte) (v : BitVec 8)
  /-- SET_PWMS v[0], ..., v[N_OUT-1] (41_pwm_output.md R156) -/
  | setPwms (v : List (BitVec 8))
  /-- DISABLE_OUTPUTS (41_pwm_output.md R159) -/
  | disableOutputs
  /-- READ_TACH ch (42_tachometer.md R190) -/
  | readTach (ch : Byte)
  /-- READ_TACHS (42_tachometer.md R191) -/
  | readTachs
  /-- READ_SPEED ch, unit, tpr, dia (42_tachometer.md R192) -/
  | readSpeed (ch : Byte) (unit : Byte) (tpr : BitVec 32) (dia : F64)
  /-- READ_SPEEDS unit, tpr, dia (42_tachometer.md R193) -/
  | readSpeeds (unit : Byte) (tpr : BitVec 32) (dia : F64)
deriving DecidableEq, Repr

end Sys2Proof
end

