-- ==== Sys2Proof/WellFormed.lean ====
section
/-! DEFINITION. Which command terms some frame spells. The only operand count that is not fixed by the constructor is
that of SET_PWMS: one NormalizedControl per output channel (30_encoding.md R99, 41_pwm_output.md R156). Every value of
a `ch`, `v`, `unit`, `tpr` or `dia` field decodes (30_encoding.md R105), so none is checked here. -/

namespace Sys2Proof

/-- `i` is a command of a block with `nOut` output channels (30_encoding.md R99). -/
def Instr.wellFormed (nOut : Nat) : Instr → Bool
  | .readPwm _ => true
  | .readPwms => true
  | .setPwm _ _ => true
  | .setPwms v => v.length == nOut
  | .disableOutputs => true
  | .readTach _ => true
  | .readTachs => true
  | .readSpeed _ _ _ _ => true
  | .readSpeeds _ _ _ => true

end Sys2Proof
end

