-- ==== Sys2Proof/Decode.lean ====
section
/-! DEFINITION. Command frames: the opcode map, the decoder, which is total on every byte sequence and rejects by name
(30_encoding.md R105, R106), and the encoder, written from the formats of 30_encoding.md R99. -/

namespace Sys2Proof

/-! ## Byte order (30_encoding.md R93) -/

/-- Byte `b` of a field holds bits `[8b+7 : 8b]` of the field's value. -/
def byteOf {w : Nat} (v : BitVec w) (b : Nat) : Byte := v.extractLsb' (8 * b) 8

/-- The `n` bytes of a field, little-endian. -/
def bytesOf {w : Nat} (n : Nat) (v : BitVec w) : List Byte := (List.range n).map (byteOf v)

/-- An i32 or u32 from its bytes 0 to 3 (30_encoding.md R97: `{byte3, byte2, byte1, byte0}`). -/
def join32 (b0 b1 b2 b3 : Byte) : BitVec 32 := b3 ++ b2 ++ b1 ++ b0

/-- A 64-bit pattern from its bytes 0 to 7 (30_encoding.md R98: `{byte7, ..., byte0}`). -/
def join64 (b0 b1 b2 b3 b4 b5 b6 b7 : Byte) : BitVec 64 := b7 ++ b6 ++ b5 ++ b4 ++ b3 ++ b2 ++ b1 ++ b0

/-! ## The opcode map (30_encoding.md R100) -/

/-- The nine opcodes by name. -/
inductive Opcode where
  | readPwm | readPwms | setPwm | setPwms | disableOutputs | readTach | readTachs | readSpeed | readSpeeds
deriving DecidableEq, Repr

/-- Byte 0 of the frame (30_encoding.md R100). -/
def opcodeByte : Opcode → Byte
  | .readPwm => 0x10
  | .readPwms => 0x11
  | .setPwm => 0x20
  | .setPwms => 0x21
  | .disableOutputs => 0x22
  | .readTach => 0x30
  | .readTachs => 0x31
  | .readSpeed => 0x32
  | .readSpeeds => 0x33

/-- Byte 0 selects the command on all 8 bits (30_encoding.md R100); the other 247 values select none (R105). -/
def opcodeOf (b : Byte) : Option Opcode :=
  if b = 0x10 then some .readPwm
  else if b = 0x11 then some .readPwms
  else if b = 0x20 then some .setPwm
  else if b = 0x21 then some .setPwms
  else if b = 0x22 then some .disableOutputs
  else if b = 0x30 then some .readTach
  else if b = 0x31 then some .readTachs
  else if b = 0x32 then some .readSpeed
  else if b = 0x33 then some .readSpeeds
  else none

/-- The frame length in bytes that an opcode fixes (30_encoding.md R99). -/
def opcodeLength (nOut : Nat) : Opcode → Nat
  | .readPwm => 2
  | .readPwms => 1
  | .setPwm => 3
  | .setPwms => 1 + nOut
  | .disableOutputs => 1
  | .readTach => 2
  | .readTachs => 1
  | .readSpeed => 15
  | .readSpeeds => 14

/-! ## Decoding (30_encoding.md R106) -/

/-- Why a frame spells no command (30_encoding.md R105). -/
inductive Illegal where
  /-- the frame has no byte 0 -/
  | emptyFrame
  /-- byte 0 is not one of the nine opcodes -/
  | unassignedOpcode (b : Byte)
  /-- the frame's length differs from the one its opcode fixes -/
  | wrongLength (b : Byte) (length : Nat)
deriving DecidableEq, Repr

/-- Format F0: no operand bytes. -/
def splitF0 : List Byte → Option Unit
  | [] => some ()
  | _ => none

/-- Format FC: `ch`. -/
def splitFC : List Byte → Option Byte
  | [ch] => some ch
  | _ => none

/-- Format FCV: `ch`, `v`. -/
def splitFCV : List Byte → Option (Byte × Byte)
  | [ch, v] => some (ch, v)
  | _ => none

/-- Format FV: `v[0] .. v[N_OUT-1]`. -/
def splitFV (nOut : Nat) (args : List Byte) : Option (List Byte) :=
  if args.length = nOut then some args else none

/-- Format FSPDS: `unit`, `tpr` (4 bytes), `dia` (8 bytes). -/
def splitFSPDS : List Byte → Option (Byte × BitVec 32 × F64)
  | [u, t0, t1, t2, t3, d0, d1, d2, d3, d4, d5, d6, d7] =>
    some (u, join32 t0 t1 t2 t3, join64 d0 d1 d2 d3 d4 d5 d6 d7)
  | _ => none

/-- Format FSPD: `ch`, then the fields of FSPDS. -/
def splitFSPD : List Byte → Option (Byte × Byte × BitVec 32 × F64)
  | ch :: rest => (splitFSPDS rest).map fun f => (ch, f)
  | [] => none

/-- The operands of an opcode; `none` when the operand bytes do not have the length the opcode fixes. -/
def decodeOperands (nOut : Nat) (args : List Byte) : Opcode → Option Instr
  | .readPwm => (splitFC args).map fun ch => .readPwm ch
  | .readPwms => (splitF0 args).map fun _ => .readPwms
  | .setPwm => (splitFCV args).map fun f => .setPwm f.1 f.2
  | .setPwms => (splitFV nOut args).map fun v => .setPwms v
  | .disableOutputs => (splitF0 args).map fun _ => .disableOutputs
  | .readTach => (splitFC args).map fun ch => .readTach ch
  | .readTachs => (splitF0 args).map fun _ => .readTachs
  | .readSpeed => (splitFSPD args).map fun f => .readSpeed f.1 f.2.1 f.2.2.1 f.2.2.2
  | .readSpeeds => (splitFSPDS args).map fun f => .readSpeeds f.1 f.2.1 f.2.2

/-- The decoder of 30_encoding.md R106, for a block with `nOut` output channels. -/
def decode (nOut : Nat) (frame : Frame) : Except Illegal Instr :=
  match frame with
  | [] => .error .emptyFrame
  | b :: args =>
    match opcodeOf b with
    | none => .error (.unassignedOpcode b)
    | some op =>
      match decodeOperands nOut args op with
      | none => .error (.wrongLength b (1 + args.length))
      | some i => .ok i

/-! ## Encoding (30_encoding.md R99, R100) -/

/-- The frame that spells a command. -/
def encode : Instr → Frame
  | .readPwm ch => [0x10, ch]
  | .readPwms => [0x11]
  | .setPwm ch v => [0x20, ch, v]
  | .setPwms v => 0x21 :: v
  | .disableOutputs => [0x22]
  | .readTach ch => [0x30, ch]
  | .readTachs => [0x31]
  | .readSpeed ch unit tpr dia => [0x32, ch, unit] ++ bytesOf 4 tpr ++ bytesOf 8 dia
  | .readSpeeds unit tpr dia => [0x33, unit] ++ bytesOf 4 tpr ++ bytesOf 8 dia

/-! ## Frames given as numbers -/

/-- The frame whose first `nbits` bits (whole bytes, byte 0 in bits 7..0) are those of `w`, and whose further bytes, up to
the length its opcode fixes, are zero. DESIGN CHOICE (log 15): the block receives whole frames (30_encoding.md R91), so
a word that gives only some of a frame's bytes is filled up to that frame's length. -/
def frameOfWord (nOut nbits w : Nat) : Frame :=
  let given := (nbits + 7) / 8
  let bits := w % 2 ^ nbits
  let fixed := match opcodeOf (BitVec.ofNat 8 bits) with
    | some op => opcodeLength nOut op
    | none => given
  (List.range (max given fixed)).map fun k => BitVec.ofNat 8 (bits >>> (8 * k))

/-- The command the decoder reads from the frame whose bits are `w`, for the test value of `N_OUT` (log 15). -/
def decodeTableWord (nbits w : Nat) : Option Instr :=
  match decode Config.t0.nOut (frameOfWord Config.t0.nOut nbits w) with
  | .ok i => some i
  | .error _ => none

end Sys2Proof
end

