-- ==== Sys2Proof/Machine/State.lean ====
section
/-! DEFINITION. The state of the block (10_state.md R30, R45), its configuration, and the ports through which the host
and the Bridge reach it; the reasons a step can stop; the state after reset (10_state.md R45). -/

namespace Sys2Proof.Machine

/-- One Bridge transaction (00_scope.md R16, R17). -/
inductive Transaction where
  /-- `MemRead(addr, n)` -/
  | read (addr n : Nat)
  /-- `MemWrite(addr, n, vals)`, with `n` the length of `vals` -/
  | write (addr : Nat) (vals : List Nat)
deriving DecidableEq, Repr

/-- One answer of the Bridge (20_memory.md R62). -/
inductive BridgeAnswer where
  /-- the transaction failed -/
  | busError
  /-- a write was accepted -/
  | ok
  /-- the values of a read, in ascending address order -/
  | values (vs : List Nat)
deriving DecidableEq, Repr

/-- A transaction together with the answer it got. -/
structure BusEvent where
  txn : Transaction
  answer : BridgeAnswer
deriving DecidableEq, Repr

/-- The block's record of one output channel (10_state.md R37). -/
inductive OutState where
  | unknown
  | disabled
  | driving (w : Nat)
deriving DecidableEq, Repr

/-- A command in progress whose Bridge transaction is in flight: issued and not yet answered (20_memory.md R77). -/
structure Pending where
  cmd : Instr
  txn : Transaction
deriving DecidableEq, Repr

/-- Why the machine stops with a fault. -/
inductive Fault where
  /-- Raised by READ_PWM and READ_PWMS when an implausible sample asks for a held value and there is none, which happens
  only in a state that no run from reset reaches (10_state.md R36, 93_implementation_defined.md U12). Safe. -/
  | heldValueMissing
deriving DecidableEq, Repr

/-- Why the model gives a step no meaning. -/
inductive Refusal where
  /-- Raised by `exec` for an instruction without a meaning; no instruction is without one. Safe. -/
  | notModelled (mnemonic : String)
  /-- Raised for every command frame and every command under a configuration that breaks 00_scope.md R12
  (93_implementation_defined.md U2). Safe. -/
  | illFormedConfiguration
  /-- Raised for a command issued while another is in progress (20_memory.md R71, 70_reset_and_hazards.md R257,
  93_implementation_defined.md U1). Safe. -/
  | commandInProgress
  /-- Raised when the answer at hand is none that 20_memory.md R62 allows for the transaction: values for a write, `ok`
  for a read, a wrong number of values, or a value of more than `RAW_W` bits (log 6). Safe. -/
  | answerOutsideR62
deriving DecidableEq, Repr

/-- The machine: the block's configuration and state, the command in progress, and the ports. -/
structure State where
  /-- the configuration parameters (00_scope.md R10); no command writes them (10_state.md R39; log 1) -/
  cfg : Config
  /-- `miss[0..N_IN-1]`, the staleness counters (10_state.md R34) -/
  miss : Vector Nat nIn
  /-- `last_good[0..N_IN-1]` (10_state.md R35) -/
  lastGood : Vector (Option Nat) nIn
  /-- `out[0..N_OUT-1]` (10_state.md R37) -/
  out : List OutState
  /-- the command in progress and its transaction in flight, if any (10_state.md R45, 20_memory.md R77; log 5) -/
  pending : Option Pending
  /-- PORT: the frames the host will issue, next first (60_exceptions.md R235; log 3) -/
  host : List Frame
  /-- PORT: the answers the Bridge will give, next first (20_memory.md R62; log 4) -/
  bridge : List BridgeAnswer
  /-- PORT: the answered transactions so far, oldest first (20_memory.md R78; log 7) -/
  bus : List BusEvent
  /-- PORT: the response frames so far, oldest first (30_encoding.md R101; log 7) -/
  responses : List Frame
deriving DecidableEq, Repr

/-- The state after reset of an instance with configuration `c` (10_state.md R45, 70_reset_and_hazards.md R250, R251). -/
def State.resetWith (c : Config) : State :=
  { cfg := c
    miss := Vector.replicate nIn (c.losTimeout + 1)
    lastGood := Vector.replicate nIn none
    out := List.replicate c.nOut .unknown
    pending := none
    host := []
    bridge := []
    bus := []
    responses := [] }

/-- The machine right after reset, under the test values of 00_scope.md R10. DESIGN CHOICE (log 2): the spec gives the
OPEN parameters no other value. -/
def State.reset : State := State.resetWith Config.t0

end Sys2Proof.Machine
end

