-- ==== Sys2Proof/Machine/Flags.lean ====
section
/-! DEFINITION. The block has no status-flag or condition-code register (10_state.md R38). Its condition state is the tag
of a SignalState, derived from the decoder's arrays (10_state.md R36), and the tag of `out[k]` (10_state.md R37). The
status of a response is an output, not state (30_encoding.md R101). -/

namespace Sys2Proof.Machine

/-- The liveness of an input channel (00_scope.md R19, R21). -/
inductive SignalState where
  | noSignal
  | valid (w : Nat)
deriving DecidableEq, Repr

/-- The result as the host API's `Option<microseconds>` (30_encoding.md R103, 90_conflicts.md C4). -/
def signalOption : SignalState → Option Nat
  | .noSignal => none
  | .valid w => some w

/-- `SignalStateOf` for a staleness counter and a last-good value (10_state.md R36); `none` only in the states of
93_implementation_defined.md U12. -/
def signalOf (c : Config) (miss : Nat) (good : Option Nat) : Option SignalState :=
  if c.losTimeout < miss then some .noSignal else good.map .valid

/-- `SignalStateOf(i)` (10_state.md R36). -/
def signalStateOf (s : State) (i : Fin nIn) : Option SignalState :=
  signalOf s.cfg s.miss[i.val] s.lastGood[i.val]

/-- The four statuses a command can end with (30_encoding.md R101, 60_exceptions.md R220). -/
inductive Status where
  | ok | busError | inputError | illegal
deriving DecidableEq, Repr

/-- Byte 0 of the response (30_encoding.md R101). -/
def statusByte : Status → Byte
  | .ok => 0x00
  | .busError => 0x01
  | .inputError => 0x02
  | .illegal => 0x03

end Sys2Proof.Machine
end

