-- ==== Sys2Proof/Machine/Float.lean ====
section
/-! DEFINITION. IEEE 754 binary64 arithmetic, rounded to nearest with ties to even (00_scope.md R15). The spec marks the
format as general knowledge (93_implementation_defined.md G1): PRESUMED (log 12). Operands are taken apart into exact
integers, the exact result is a ratio of integers, and one rounding at the end narrows it. The unit of a magnitude is
`2^-1074`, the least positive binary64 value, so that every finite binary64 value is a whole number of units. -/

namespace Sys2Proof.Machine

/-! ## The parts of a bit pattern -/

/-- The sign bit. -/
def f64Sign (x : F64) : Bool := x.getLsbD 63

/-- The biased exponent, bits `[62:52]`. -/
def f64Exp (x : F64) : Nat := (x.extractLsb' 52 11).toNat

/-- The fraction, bits `[51:0]`. -/
def f64Frac (x : F64) : Nat := (x.extractLsb' 0 52).toNat

def f64IsFinite (x : F64) : Bool := f64Exp x != 2047

def f64IsNaN (x : F64) : Bool := f64Exp x == 2047 && f64Frac x != 0

def f64IsInf (x : F64) : Bool := f64Exp x == 2047 && f64Frac x == 0

/-- The magnitude of a finite value in units of `2^-1074`. -/
def f64Mag (x : F64) : Nat :=
  if f64Exp x = 0 then f64Frac x else (2 ^ 52 + f64Frac x) <<< (f64Exp x - 1)

/-- The signed value of a finite `x` in units of `2^-1074`. -/
def f64Scaled (x : F64) : Int := if f64Sign x then -(f64Mag x : Int) else f64Mag x

/-! ## Rounding -/

/-- The number of units in one step of the binary64 grid at a magnitude of `n` whole units, as a power of two. -/
def ulpLog (n : Nat) : Nat := n.log2 - 52

/-- The ratio `num / den` of units, rounded to the binary64 grid: nearest, ties to even (00_scope.md R15). -/
def roundMag (num den : Nat) : Nat :=
  let k := ulpLog (num / den)
  let step := den <<< k
  let q := num / step
  let r := num % step
  if step < 2 * r ∨ (step = 2 * r ∧ q % 2 = 1) then (q + 1) <<< k else q <<< k

/-- The bit pattern, sign bit apart, of a magnitude on the binary64 grid; infinity from `2^1024` on. -/
def packMag (m : Nat) : Nat :=
  if m < 2 ^ 52 then m
  else if m.log2 < 2098 then (m.log2 - 51) <<< 52 + ((m >>> (m.log2 - 52)) - 2 ^ 52)
  else 2047 <<< 52

/-- The binary64 value with a given sign and a bit pattern without its sign bit. -/
def withSign (neg : Bool) (body : Nat) : F64 :=
  BitVec.ofNat 64 ((if neg then 1 <<< 63 else 0) + body)

def f64Zero (neg : Bool) : F64 := withSign neg 0

def f64Inf (neg : Bool) : F64 := withSign neg (2047 <<< 52)

/-- The binary64 value nearest to `± num / den` units of `2^-1074`. -/
def f64Round (neg : Bool) (num den : Nat) : F64 := withSign neg (packMag (roundMag num den))

/-- A NaN whose sign and payload are free (log 11). -/
def f64NaN (op : F64Op) (x y : F64) : F64 := 0x7FF8000000000000 ||| Config.nanBits op x y

/-! ## Conversions -/

/-- `F64(c)` for the constant `c = num / den`: the nearest binary64 value (00_scope.md R15). -/
def f64OfRatio (num : Int) (den : Nat) : F64 := f64Round (decide (num < 0)) (num.natAbs <<< 1074) den

/-- `toF64(n)`, exact for `|n| <= 2^53` (00_scope.md R15). -/
def toF64 (n : Int) : F64 := f64OfRatio n 1

/-! ## The four operators of 00_scope.md R15 -/

/-- The sum of two values, the second already negated for a difference. -/
def f64Sum (op : F64Op) (x y : F64) : F64 :=
  if f64IsNaN x || f64IsNaN y then f64NaN op x y
  else if f64IsInf x then
    if f64IsInf y && f64Sign x != f64Sign y then f64NaN op x y else x
  else if f64IsInf y then y
  else
    let n := f64Scaled x + f64Scaled y
    if n = 0 then f64Zero (f64Sign x && f64Sign y)
    else f64Round (decide (n < 0)) n.natAbs 1

/-- `x` with its sign bit flipped. -/
def f64Neg (x : F64) : F64 := x ^^^ 0x8000000000000000

/-- `x +f y` -/
def f64Add (x y : F64) : F64 := f64Sum .add x y

/-- `x -f y` -/
def f64Sub (x y : F64) : F64 := f64Sum .sub x (f64Neg y)

/-- `x *f y` -/
def f64Mul (x y : F64) : F64 :=
  let neg := f64Sign x != f64Sign y
  if f64IsNaN x || f64IsNaN y then f64NaN .mul x y
  else if f64IsInf x || f64IsInf y then
    if (f64IsFinite x && f64Mag x == 0) || (f64IsFinite y && f64Mag y == 0) then f64NaN .mul x y
    else f64Inf neg
  else f64Round neg (f64Mag x * f64Mag y) (1 <<< 1074)

/-- `x /f y` -/
def f64Div (x y : F64) : F64 :=
  let neg := f64Sign x != f64Sign y
  if f64IsNaN x || f64IsNaN y then f64NaN .div x y
  else if f64IsInf x then (if f64IsInf y then f64NaN .div x y else f64Inf neg)
  else if f64IsInf y then f64Zero neg
  else if f64Mag y = 0 then (if f64Mag x = 0 then f64NaN .div x y else f64Inf neg)
  else f64Round neg (f64Mag x <<< 1074) (f64Mag y)

/-! ## The constants of 00_scope.md R15 and 42_tachometer.md R183 -/

/-- `PI64 = F64(π) = 0x1.921fb54442d18p+1` -/
def pi64 : F64 := 0x400921FB54442D18

/-- `F64(60)` -/
def f64c60 : F64 := 0x404E000000000000

/-- `F64(100)` -/
def f64c100 : F64 := 0x4059000000000000

/-- `F64(1000)` -/
def f64c1000 : F64 := 0x408F400000000000

/-- `F64(0.621371) = 0x1.3e2456f75d9a1p-1` -/
def f64cMph : F64 := 0x3FE3E2456F75D9A1

end Sys2Proof.Machine
end

