-- ==== Sys2Proof/Machine/Parameters.lean ====
section
/-! DEFINITION. What the configuration parameters fix: the constants of 00_scope.md R11, well-formed configurations
(00_scope.md R12), and the channels with their names and bound addresses (10_state.md R33). -/

namespace Sys2Proof.Machine

/-! ## Fixed values (00_scope.md R11) -/

def pwMin : Nat := 1000
def pwMax : Nat := 2000
def pwCenter : Nat := 1500

/-! ## Channels (10_state.md R33) -/

/-- The three channel groups. -/
inductive Group where
  | input | output | tachometer
deriving DecidableEq, Repr

/-- The direction of a group's channels, as 10_state.md R33 tables it. -/
inductive Direction where
  | input | output
deriving DecidableEq, Repr

def directionOf : Group → Direction
  | .input => .input
  | .output => .output
  | .tachometer => .input

/-- The base address of a group (20_memory.md R61). -/
def groupBase (c : Config) : Group → Nat
  | .input => c.addrInBase
  | .output => c.addrOutBase
  | .tachometer => c.addrTachBase

/-- The number of channels of a group. -/
def groupSize (c : Config) : Group → Nat
  | .input => nIn
  | .output => c.nOut
  | .tachometer => nTach

/-- The bound register address of channel `k` of a group: base plus index (10_state.md R33). -/
def channelAddr (c : Config) (g : Group) (k : Nat) : Nat := groupBase c g + k

/-- The identity of the channels 0 to 3 of the input and output groups. -/
def controlName : Nat → Option String
  | 0 => some "Steering"
  | 1 => some "Throttle"
  | 2 => some "Aux3"
  | 3 => some "Aux4"
  | _ => none

/-- The identity of channel `k` of a group, `none` past its last channel (10_state.md R33). -/
def channelName (c : Config) (g : Group) (k : Nat) : Option String :=
  if k < groupSize c g then
    match g with
    | .input => controlName k
    | .output => some ((controlName k).getD ("Out" ++ toString (k + 1)))
    | .tachometer => some ("Tach" ++ toString (k + 1))
  else none

/-- `addr` is a register of group `g`. -/
abbrev InGroup (c : Config) (g : Group) (addr : Nat) : Prop :=
  groupBase c g ≤ addr ∧ addr < groupBase c g + groupSize c g

/-! ## Well-formed configurations (00_scope.md R12) -/

/-- The group lies inside `[0, 2^ADDR_W)`. -/
abbrev GroupInSpace (c : Config) (g : Group) : Prop := groupBase c g + groupSize c g ≤ 2 ^ c.addrW

/-- The addresses of two groups are disjoint. -/
abbrev GroupsDisjoint (c : Config) (g h : Group) : Prop :=
  groupBase c g + groupSize c g ≤ groupBase c h ∨ groupBase c h + groupSize c h ≤ groupBase c g

/-- `W_TACH` is a binary64 value in `[2^-20, 2^20]`; in units of `2^-1074` that is `[2^1054, 2^1094]`. -/
def windowOk (w : F64) : Bool :=
  f64IsFinite w && !f64Sign w && decide (1 <<< 1054 ≤ f64Mag w) && decide (f64Mag w ≤ 1 <<< 1094)

/-- The constraints of 00_scope.md R12, in its order. -/
abbrev ConfigRules (c : Config) : Prop :=
  (1 ≤ c.plausMin ∧ c.plausMin ≤ c.plausMax)
  ∧ (1 ≤ c.inUsNum ∧ 1 ≤ c.inUsDen ∧ 1 ≤ c.outTickNum ∧ 1 ≤ c.outTickDen)
  ∧ (1 ≤ (1000 * c.outTickNum) / c.outTickDen ∧ (2000 * c.outTickNum) / c.outTickDen ≤ 2 ^ c.rawW - 1)
  ∧ (1 ≤ c.nOut ∧ c.nOut ≤ 255)
  ∧ (GroupInSpace c .input ∧ GroupInSpace c .output ∧ GroupInSpace c .tachometer)
  ∧ (GroupsDisjoint c .input .output ∧ GroupsDisjoint c .input .tachometer ∧ GroupsDisjoint c .output .tachometer)
  ∧ (1 ≤ c.rawW ∧ c.rawW ≤ 32) ∧ (1 ≤ c.addrW ∧ c.addrW ≤ 32)
  ∧ windowOk c.wTach = true
  ∧ (∀ j : Fin nTach, -(2 ^ 31) ≤ c.tprCfg[j.val] ∧ c.tprCfg[j.val] ≤ 2 ^ 31 - 1)

/-- A configuration is well formed (00_scope.md R12). -/
def configOk (c : Config) : Bool := decide (ConfigRules c)

/-- A configuration is well formed (00_scope.md R12), as a proposition. -/
abbrev ConfigOk (c : Config) : Prop := configOk c = true

end Sys2Proof.Machine
end

