-- ==== Sys2Proof/Machine/Operands.lean ====
section
/-! DEFINITION. The operand forms, their checks (60_exceptions.md R222), the conversions between raw register values and
microseconds, and the bytes of response payloads (30_encoding.md R103, R104). -/

namespace Sys2Proof.Machine

/-- `clamp(x, lo, hi)` (00_scope.md R14). -/
def clamp (x lo hi : Int) : Int := min (max x lo) hi

/-! ## Input side (40_pwm_input.md) -/

/-- `TicksToUs(raw)` (40_pwm_input.md R122). -/
def ticksToUs (c : Config) (raw : Nat) : Nat := raw * c.inUsNum / c.inUsDen

/-- `Plausible(us)` (40_pwm_input.md R121). -/
def plausible (c : Config) (us : Nat) : Bool := decide (c.plausMin ≤ us) && decide (us ≤ c.plausMax)

/-- A microsecond value clamped to the PulseWidthMicroseconds domain (40_pwm_input.md R124). -/
def clampWidth (us : Nat) : Nat := (clamp us pwMin pwMax).toNat

/-- The normaliser `NORM(us)` (40_pwm_input.md R132). No command invokes it. -/
def normControl (us : Int) : Int := (32 * us - 48000) / 125

/-! ## Output side (41_pwm_output.md) -/

/-- `PW(v)`, the affine map from NormalizedControl to a pulse width (41_pwm_output.md R150). -/
def pw (v : BitVec 8) : Nat := (clamp (pwCenter + (125 * v.toInt) / 32) pwMin pwMax).toNat

/-- `OutRaw(w)` (41_pwm_output.md R151). -/
def outRaw (c : Config) (w : Nat) : Nat := w * c.outTickNum / c.outTickDen

/-! ## Tachometer operands (42_tachometer.md) -/

/-- A speed unit (00_scope.md R19). -/
inductive SpeedUnit where
  | kmh | mph
deriving DecidableEq, Repr

/-- The unit a byte stands for (30_encoding.md R96). -/
def unitOf (b : Byte) : Option SpeedUnit :=
  if b = 0x00 then some .kmh else if b = 0x01 then some .mph else none

/-- A ticks-per-revolution value is valid (42_tachometer.md R187). -/
def tprOk (tpr : Int) : Bool := decide (0 < tpr)

/-- A wheel diameter is a finite binary64 value greater than zero (42_tachometer.md R188). -/
def diaOk (dia : F64) : Bool := f64IsFinite dia && !f64Sign dia && f64Mag dia != 0

/-! ## Payload bytes -/

/-- A SignalState record (30_encoding.md R103). -/
def signalRecord : SignalState → List Byte
  | .noSignal => [0x00, 0x00, 0x00]
  | .valid w => 0x01 :: bytesOf 2 (BitVec.ofNat 16 w)

/-- An f64 payload (30_encoding.md R104). -/
def f64Record (x : F64) : List Byte := bytesOf 8 x

end Sys2Proof.Machine
end

