-- ==== Sys2Proof/Machine/Ops.lean ====
section
/-! DEFINITION. The operations every command is made of: accepting a command, ending it with a response, and its one
Bridge transaction (20_memory.md R70). The block has no trap mechanism (60_exceptions.md R229): an error ends the command
with its status, and `raise` is that one shared operation. There is nothing to return from (60_exceptions.md R230). -/

namespace Sys2Proof.Machine

/-- What a step or a command answers. -/
abbrev Result := Host.Outcome State Fault Refusal

/-! ## Ending a command (00_scope.md R18) -/

/-- The state with one more response frame: the status byte, then the payload (30_encoding.md R101). -/
def respond (st : Status) (payload : List Byte) (s : State) : State :=
  { s with responses := s.responses ++ [statusByte st :: payload] }

/-- `raise E`: the command ends with status `E` and no payload; nothing else is recorded (60_exceptions.md R227, R229). -/
def raise (st : Status) (s : State) : Result := .next (respond st [] s)

/-! ## Accepting a command -/

/-- A command has a meaning only under a well-formed configuration (00_scope.md R12) and while no other command is in
progress (20_memory.md R71, 70_reset_and_hazards.md R257). -/
def accepted (s : State) (meaning : Result) : Result :=
  if configOk s.cfg then
    (if s.pending.isSome then .refused .commandInProgress else meaning)
  else .refused .illFormedConfiguration

/-! ## The Bridge transaction (20_memory.md R62, R76, R77) -/

/-- The command `i` waits for the answer to `t`: nothing else changes (20_memory.md R70, R77; log 5). -/
def wait (i : Instr) (t : Transaction) (s : State) : State := { s with pending := some ⟨i, t⟩ }

/-- The command in progress is taken up again where it waits. -/
def resume (s : State) : State := { s with pending := none }

/-- The transaction `t` got the answer `a`, the first of the Bridge's answers. -/
def answered (t : Transaction) (a : BridgeAnswer) (rest : List BridgeAnswer) (s : State) : State :=
  { s with bridge := rest, bus := s.bus ++ [⟨t, a⟩] }

/-- `vs` is an answer that 20_memory.md R62 allows for a read of `n` registers. -/
def readAnswerOk (c : Config) (n : Nat) (vs : List Nat) : Bool :=
  vs.length == n && vs.all fun v => decide (v < 2 ^ c.rawW)

/-- `r <- MemRead(addr, n); if r = BusError then raise BUS_ERROR`, then the rest of the command with the values read. A
read that fails writes no state (40_pwm_input.md R126, 60_exceptions.md R224). -/
def readBridge (i : Instr) (addr n : Nat) (s : State) (withValues : List Nat → State → Result) : Result :=
  match s.bridge with
  | [] => .next (wait i (.read addr n) s)
  | .busError :: rest => raise .busError (answered (.read addr n) .busError rest s)
  | .values vs :: rest =>
    if readAnswerOk s.cfg n vs then withValues vs (answered (.read addr n) (.values vs) rest s)
    else .refused .answerOutsideR62
  | .ok :: _ => .refused .answerOutsideR62

/-- `out` with the entries from channel `first` on replaced by `new`, one per channel. -/
def overlay (first : Nat) (new : List OutState) (out : List OutState) : List OutState :=
  match new with
  | [] => out
  | o :: rest => overlay (first + 1) rest (out.set first o)

/-- The output channels from `first` on get the records `new`. -/
def setOut (first : Nat) (new : List OutState) (s : State) : State := { s with out := overlay first new s.out }

/-- One write of `raws` to the output channels from `first` on. Answered `Ok` it leaves them the records `new`; answered
`BusError` it leaves each of them `Unknown` (20_memory.md R67, 60_exceptions.md R224). -/
def writeOutputs (i : Instr) (first : Nat) (raws : List Nat) (new : List OutState) (s : State) : Result :=
  let t := Transaction.write (channelAddr s.cfg .output first) raws
  match s.bridge with
  | [] => .next (wait i t s)
  | .busError :: rest => raise .busError (setOut first (new.map fun _ => .unknown) (answered t .busError rest s))
  | .ok :: rest => .next (respond .ok [] (setOut first new (answered t .ok rest s)))
  | .values _ :: _ => .refused .answerOutsideR62

end Sys2Proof.Machine
end

