-- ==== Sys2Proof/Machine/PwmInput.lean ====
section
/-! DEFINITION. The PWM Input Decoder: READ_PWM and READ_PWMS (40_pwm_input.md). -/

namespace Sys2Proof.Machine

/-- What one sample leaves of a channel, and the SignalState it returns. -/
structure Sampled where
  miss : Nat
  lastGood : Option Nat
  signal : SignalState
deriving DecidableEq, Repr

/-- `DecodeSample` on one channel's counter and last-good value (40_pwm_input.md R124, R125). -/
def decodeSample (c : Config) (miss : Nat) (good : Option Nat) (raw : Nat) : Except Fault Sampled :=
  let us := ticksToUs c raw
  if plausible c us then
    .ok ⟨0, some (clampWidth us), .valid (clampWidth us)⟩
  else
    let m := min (miss + 1) (c.losTimeout + 1)
    if c.losTimeout < m then .ok ⟨m, good, .noSignal⟩
    else
      match good with
      | some w0 => .ok ⟨m, good, .valid w0⟩
      | none => .error .heldValueMissing

/-- The channel's arrays after a sample. -/
def setChannel (i : Fin nIn) (r : Sampled) (s : State) : State :=
  { s with miss := s.miss.set i r.miss, lastGood := s.lastGood.set i r.lastGood }

/-- The samples of several channels, decoded one after another; channels are independent (40_pwm_input.md R128). -/
def decodeChannels : List (Fin nIn × Nat) → State → Except Fault (List SignalState × State)
  | [], s => .ok ([], s)
  | (i, raw) :: rest, s =>
    match decodeSample s.cfg s.miss[i.val] s.lastGood[i.val] raw with
    | .error f => .error f
    | .ok r =>
      match decodeChannels rest (setChannel i r s) with
      | .error f => .error f
      | .ok (sigs, s') => .ok (r.signal :: sigs, s')

/-- Decodes the samples and answers OK with one SignalState record each (30_encoding.md R102, R103). -/
def respondDecoded (samples : List (Fin nIn × Nat)) (s : State) : Result :=
  match decodeChannels samples s with
  | .error f => .fault f
  | .ok (sigs, s') => .next (respond .ok (sigs.flatMap signalRecord) s')

/-- The input channels in channel order. -/
def inChannels : List (Fin nIn) := [0, 1, 2, 3]

/-- READ_PWM ch (40_pwm_input.md R127). -/
def execReadPwm (ch : Byte) (s : State) : Result :=
  accepted s <|
    if h : ch.toNat < nIn then
      readBridge (.readPwm ch) (channelAddr s.cfg .input ch.toNat) 1 s fun vs s' =>
        respondDecoded ([⟨ch.toNat, h⟩].zip vs) s'
    else raise .inputError s

/-- READ_PWMS (40_pwm_input.md R128). -/
def execReadPwms (s : State) : Result :=
  accepted s <|
    readBridge .readPwms (channelAddr s.cfg .input 0) nIn s fun vs s' =>
      respondDecoded (inChannels.zip vs) s'

end Sys2Proof.Machine
end

