-- ==== Sys2Proof/Machine/PwmOutput.lean ====
section
/-! DEFINITION. The PWM Output Generator: SET_PWM, SET_PWMS and DISABLE_OUTPUTS (41_pwm_output.md). -/

namespace Sys2Proof.Machine

/-- SET_PWM ch, v (41_pwm_output.md R153). -/
def execSetPwm (ch : Byte) (v : BitVec 8) (s : State) : Result :=
  accepted s <|
    if ch.toNat < s.cfg.nOut then
      writeOutputs (.setPwm ch v) ch.toNat [outRaw s.cfg (pw v)] [.driving (pw v)] s
    else raise .inputError s

/-- SET_PWMS v[0], ..., v[N_OUT-1] (41_pwm_output.md R156). A term with another number of operands has a frame of the
wrong length, which is ILLEGAL (30_encoding.md R105; log 14). -/
def execSetPwms (v : List (BitVec 8)) (s : State) : Result :=
  accepted s <|
    if v.length = s.cfg.nOut then
      writeOutputs (.setPwms v) 0 (v.map fun x => outRaw s.cfg (pw x)) (v.map fun x => .driving (pw x)) s
    else raise .illegal s

/-- DISABLE_OUTPUTS (41_pwm_output.md R159): the raw value 0 suppresses pulses (20_memory.md R64). -/
def execDisableOutputs (s : State) : Result :=
  accepted s <|
    writeOutputs .disableOutputs 0 (List.replicate s.cfg.nOut 0) (List.replicate s.cfg.nOut .disabled) s

end Sys2Proof.Machine
end

