-- ==== Sys2Proof/Machine/Tachometer.lean ====
section
/-! DEFINITION. The Tachometer Speed Engine: READ_TACH, READ_TACHS, READ_SPEED and READ_SPEEDS (42_tachometer.md). It
writes no state of the block (10_state.md R41). -/

namespace Sys2Proof.Machine

/-- `RPM64(p, tpr)` with the window `w = W_TACH` (42_tachometer.md R183); zero pulses give `+0.0` (R185). -/
def rpm64 (w : F64) (p : Nat) (tpr : Int) : F64 :=
  if p = 0 then f64Zero false
  else f64Mul (f64Div (toF64 p) (toF64 tpr)) (f64Div f64c60 w)

/-- `SPEED64(p, tpr, d, unit)` with the window `w = W_TACH` (42_tachometer.md R183, R185). -/
def speed64 (w : F64) (p : Nat) (tpr : Int) (d : F64) (unit : SpeedUnit) : F64 :=
  if p = 0 then f64Zero false
  else
    let rpm := rpm64 w p tpr
    let kmh := f64Div (f64Mul (f64Mul rpm (f64Div (f64Mul pi64 d) f64c100)) f64c60) f64c1000
    match unit with
    | .kmh => kmh
    | .mph => f64Mul kmh f64cMph

/-- The operand checks that READ_SPEED and READ_SPEEDS share (60_exceptions.md R222): the unit when all are met. -/
def speedOperands (unit : Byte) (tpr : BitVec 32) (dia : F64) : Option SpeedUnit :=
  if tprOk tpr.toInt && diaOk dia then unitOf unit else none

/-- READ_TACH ch (42_tachometer.md R190). -/
def execReadTach (ch : Byte) (s : State) : Result :=
  accepted s <|
    if h : ch.toNat < nTach then
      if tprOk s.cfg.tprCfg[ch.toNat] then
        readBridge (.readTach ch) (channelAddr s.cfg .tachometer ch.toNat) 1 s fun vs s' =>
          .next (respond .ok (vs.flatMap fun p => f64Record (rpm64 s.cfg.wTach p s.cfg.tprCfg[ch.toNat])) s')
      else raise .inputError s
    else raise .inputError s

/-- READ_TACHS (42_tachometer.md R191). -/
def execReadTachs (s : State) : Result :=
  accepted s <|
    if s.cfg.tprCfg.toList.all tprOk then
      readBridge .readTachs (channelAddr s.cfg .tachometer 0) nTach s fun vs s' =>
        .next (respond .ok
          ((vs.zip s.cfg.tprCfg.toList).flatMap fun x => f64Record (rpm64 s.cfg.wTach x.1 x.2)) s')
    else raise .inputError s

/-- READ_SPEED ch, unit, tpr, dia (42_tachometer.md R192). -/
def execReadSpeed (ch unit : Byte) (tpr : BitVec 32) (dia : F64) (s : State) : Result :=
  accepted s <|
    if ch.toNat < nTach then
      match speedOperands unit tpr dia with
      | some u =>
        readBridge (.readSpeed ch unit tpr dia) (channelAddr s.cfg .tachometer ch.toNat) 1 s fun vs s' =>
          .next (respond .ok (vs.flatMap fun p => f64Record (speed64 s.cfg.wTach p tpr.toInt dia u)) s')
      | none => raise .inputError s
    else raise .inputError s

/-- READ_SPEEDS unit, tpr, dia (42_tachometer.md R193). -/
def execReadSpeeds (unit : Byte) (tpr : BitVec 32) (dia : F64) (s : State) : Result :=
  accepted s <|
    match speedOperands unit tpr dia with
    | some u =>
      readBridge (.readSpeeds unit tpr dia) (channelAddr s.cfg .tachometer 0) nTach s fun vs s' =>
        .next (respond .ok (vs.flatMap fun p => f64Record (speed64 s.cfg.wTach p tpr.toInt dia u)) s')
    | none => raise .inputError s

end Sys2Proof.Machine
end

