-- ==== Sys2Proof/Machine/Dispatch.lean ====
section
/-! DEFINITION. The meaning of each command (00_scope.md R3, 30_encoding.md R100). -/

namespace Sys2Proof.Machine

/-- The block performs one command (20_memory.md R70). -/
def exec (i : Instr) (s : State) : Host.Outcome State Fault Refusal :=
  match i with
  | .readPwm ch => Sys2Proof.Machine.execReadPwm ch s
  | .readPwms => Sys2Proof.Machine.execReadPwms s
  | .setPwm ch v => Sys2Proof.Machine.execSetPwm ch v s
  | .setPwms v => Sys2Proof.Machine.execSetPwms v s
  | .disableOutputs => Sys2Proof.Machine.execDisableOutputs s
  | .readTach ch => Sys2Proof.Machine.execReadTach ch s
  | .readTachs => Sys2Proof.Machine.execReadTachs s
  | .readSpeed ch unit tpr dia => Sys2Proof.Machine.execReadSpeed ch unit tpr dia s
  | .readSpeeds unit tpr dia => Sys2Proof.Machine.execReadSpeeds unit tpr dia s

end Sys2Proof.Machine
end

