-- ==== Sys2Proof/Machine/Fetch.lean ====
section
/-! DEFINITION. How the next command reaches the block: the host issues one frame at a time and waits for its response
(60_exceptions.md R235); a command whose transaction is unanswered stays in progress (20_memory.md R77). -/

namespace Sys2Proof.Machine

/-- What the block has to do next. -/
inductive Fetched where
  /-- no frame has been issued: the block waits for the host (70_reset_and_hazards.md R253, 60_exceptions.md R236) -/
  | idle
  /-- the frame spells no command; the state is the one after its response (60_exceptions.md R221) -/
  | illegal (s : State)
  /-- the command `i` runs at `s` -/
  | command (i : Instr) (s : State)
  /-- the spec gives the frame no meaning -/
  | noMeaning (r : Refusal)
deriving DecidableEq, Repr

/-- The state after the host issued its next frame. -/
def frameTaken (rest : List Frame) (s : State) : State := { s with host := rest }

/-- The next command: the one in progress, else the one the host's next frame spells (30_encoding.md R106). A frame has
no meaning under an ill-formed configuration, whose `N_OUT` decoding needs (00_scope.md R12; log 8). -/
def fetch (s : State) : Fetched :=
  match s.pending with
  | some p => .command p.cmd (resume s)
  | none =>
    match s.host with
    | [] => .idle
    | f :: rest =>
      if configOk s.cfg then
        match decode s.cfg.nOut f with
        | .error _ => .illegal (respond .illegal [] (frameTaken rest s))
        | .ok i => .command i (frameTaken rest s)
      else .noMeaning .illFormedConfiguration

/-- The host issues the frame `f` next: no command is in progress, and `f` stands before what the host would issue. -/
def issue (f : Frame) (s : State) : State := { s with host := f :: s.host, pending := none }

end Sys2Proof.Machine
end

