-- ==== Sys2Proof/Machine/Step.lean ====
section
/-! DEFINITION. One step of the machine: one command, atomically (20_memory.md R70, 60_exceptions.md R235). -/

namespace Sys2Proof.Machine

/-- One step: the next command runs, or a frame that spells none is answered, or the block waits for the host. -/
def step (s : State) : Host.Outcome State Fault Refusal :=
  match fetch s with
  | .idle => .next s
  | .illegal t => .next t
  | .command i t => exec i t
  | .noMeaning r => .refused r

/-- The host's next frame is the one whose bits are `w`, zero-filled to the length its opcode fixes (log 3, log 15). -/
def State.withFetchWord (s : State) (nbits w : Nat) : State := issue (frameOfWord s.cfg.nOut nbits w) s

end Sys2Proof.Machine
end

