-- ==== Sys2Proof/Machine/Assembler.lean ====
section
/-! DEFINITION. The assembler syntax of 30_encoding.md R107 and the pseudo-commands of R108. A line is a mnemonic, a
space, and operands separated by commas (log 20). -/

namespace Sys2Proof.Machine

/-! ## Tokens -/

/-- The text up to the first `sep`, and the text after it if there is one. -/
def cutAt (sep : Char) : List Char → List Char × Option (List Char)
  | [] => ([], none)
  | ch :: rest =>
    if ch = sep then ([], some rest)
    else
      let r := cutAt sep rest
      (ch :: r.1, r.2)

/-- The fields of a text separated by commas. -/
def commaFields : List Char → List (List Char)
  | [] => [[]]
  | ch :: rest =>
    if ch = ',' then [] :: commaFields rest
    else
      match commaFields rest with
      | [] => [[ch]]
      | f :: fs => (ch :: f) :: fs

/-- A field without the spaces around it. -/
def trimSpaces (t : List Char) : List Char :=
  ((t.dropWhile (· = ' ')).reverse.dropWhile (· = ' ')).reverse

/-- The value of a decimal digit. -/
def digitValue (ch : Char) : Option Nat :=
  if 48 ≤ ch.toNat ∧ ch.toNat ≤ 57 then some (ch.toNat - 48) else none

/-- The value of digits read after `acc`. -/
def digitsFrom (acc : Nat) : List Char → Option Nat
  | [] => some acc
  | ch :: rest =>
    match digitValue ch with
    | some d => digitsFrom (10 * acc + d) rest
    | none => none

/-- A non-empty run of decimal digits. -/
def naturalOf (t : List Char) : Option Nat := if t.isEmpty then none else digitsFrom 0 t

/-- A sign and the text after it. -/
def signOf : List Char → Bool × List Char
  | '-' :: rest => (true, rest)
  | t => (false, t)

/-- A decimal integer. -/
def integerOf (t : List Char) : Option Int :=
  (naturalOf (signOf t).2).map fun n => if (signOf t).1 then -(n : Int) else n

/-- A decimal number, as the binary64 value nearest to it (30_encoding.md R107, 00_scope.md R15). -/
def decimalOf (t : List Char) : Option F64 :=
  let body := cutAt '.' (signOf t).2
  let frac := body.2.getD []
  match naturalOf body.1, digitsFrom 0 (body.1 ++ frac), body.2 with
  | some _, some n, none => some (f64Round (signOf t).1 (n <<< 1074) 1)
  | some _, some n, some (_ :: _) => some (f64Round (signOf t).1 (n <<< 1074) (10 ^ frac.length))
  | _, _, _ => none

/-! ## Operands (30_encoding.md R107) -/

/-- A channel: its identity name or its decimal index. Every index that a byte holds is an operand; whether the channel
exists is checked by the command (30_encoding.md R94). -/
def channelOf (c : Config) (g : Group) (t : List Char) : Option Byte :=
  match (List.range (groupSize c g)).find? fun k => (channelName c g k).map String.toList == some t with
  | some k => some (BitVec.ofNat 8 k)
  | none =>
    match naturalOf t with
    | some n => if n < 256 then some (BitVec.ofNat 8 n) else none
    | none => none

/-- A NormalizedControl: a decimal integer in [-128, 127]. -/
def controlOf (t : List Char) : Option (BitVec 8) :=
  match integerOf t with
  | some n => if -128 ≤ n ∧ n ≤ 127 then some (BitVec.ofInt 8 n) else none
  | none => none

/-- `KMH` or `MPH`. -/
def unitTokenOf (t : List Char) : Option Byte :=
  if t = ['K', 'M', 'H'] then some 0x00 else if t = ['M', 'P', 'H'] then some 0x01 else none

/-- `tpr`: a decimal integer that an i32 holds. -/
def tprTokenOf (t : List Char) : Option (BitVec 32) :=
  match integerOf t with
  | some n => if -(2 ^ 31) ≤ n ∧ n < 2 ^ 31 then some (BitVec.ofInt 32 n) else none
  | none => none

/-- The values of a list of tokens, if each has one. -/
def tokensOf {α : Type} (f : List Char → Option α) : List (List Char) → Option (List α)
  | [] => some []
  | t :: rest =>
    match f t, tokensOf f rest with
    | some v, some vs => some (v :: vs)
    | _, _ => none

/-! ## Commands and pseudo-commands -/

/-- `READ_RPM j` (30_encoding.md R108). -/
def pseudoReadRpm (j : Byte) : Instr := .readTach j

/-- `NEUTRAL k` (30_encoding.md R108): it programs 1500 µs and is not a disable. -/
def pseudoNeutral (k : Byte) : Instr := .setPwm k 0

/-- `NEUTRAL_ALL` (30_encoding.md R108). -/
def pseudoNeutralAll (c : Config) : Instr := .setPwms (List.replicate c.nOut 0)

/-- `RELEASE_ALL` (30_encoding.md R108). -/
def pseudoReleaseAll : Instr := .disableOutputs

/-- The command of a mnemonic and its operand tokens (30_encoding.md R107, R108). -/
def assemble (c : Config) (mnemonic : String) (operands : List (List Char)) : Option Instr :=
  match mnemonic, operands with
  | "READ_PWM", [ch] => (channelOf c .input ch).map fun k => .readPwm k
  | "READ_PWMS", [] => some .readPwms
  | "SET_PWM", [ch, v] =>
    match channelOf c .output ch, controlOf v with
    | some k, some x => some (.setPwm k x)
    | _, _ => none
  | "SET_PWMS", vs =>
    match tokensOf controlOf vs with
    | some xs => if xs.length = c.nOut then some (.setPwms xs) else none
    | none => none
  | "DISABLE_OUTPUTS", [] => some .disableOutputs
  | "READ_TACH", [ch] => (channelOf c .tachometer ch).map fun k => .readTach k
  | "READ_TACHS", [] => some .readTachs
  | "READ_SPEED", [ch, u, tpr, dia] =>
    match channelOf c .tachometer ch, unitTokenOf u, tprTokenOf tpr, decimalOf dia with
    | some k, some x, some n, some d => some (.readSpeed k x n d)
    | _, _, _, _ => none
  | "READ_SPEEDS", [u, tpr, dia] =>
    match unitTokenOf u, tprTokenOf tpr, decimalOf dia with
    | some x, some n, some d => some (.readSpeeds x n d)
    | _, _, _ => none
  | "READ_RPM", [ch] => (channelOf c .tachometer ch).map pseudoReadRpm
  | "NEUTRAL", [ch] => (channelOf c .output ch).map pseudoNeutral
  | "NEUTRAL_ALL", [] => some (pseudoNeutralAll c)
  | "RELEASE_ALL", [] => some pseudoReleaseAll
  | _, _ => none

/-- The command a line of assembler text spells (30_encoding.md R107). -/
def assembleLine (c : Config) (line : String) : Option Instr :=
  let parts := cutAt ' ' line.toList
  let operands := match parts.2 with
    | none => []
    | some t => (commaFields t).map trimSpaces
  assemble c (String.ofList parts.1) operands

end Sys2Proof.Machine
end

