-- ==== Sys2Proof/Machine/FarSide.lean ====
section
/-! DEFINITION. What the block's own transactions say of the registers behind the Bridge. Those registers are not state of
the block (10_state.md R43); this view is computed from the answered transactions, under the assumption of
20_memory.md R66 (log 13). -/

namespace Sys2Proof.Machine

/-- What the transactions so far say of one output register. -/
inductive FarReg where
  /-- nothing: no write covers it, or the last one failed (20_memory.md R67, 93_implementation_defined.md U5) -/
  | unknown
  /-- the last write that covers it was answered `Ok` with this value (20_memory.md R66) -/
  | holds (v : Nat)
deriving DecidableEq, Repr

/-- One answered transaction's effect on what is known of the register `addr` (20_memory.md R66, R67, R75). -/
def regStep (addr : Nat) (r : FarReg) (e : BusEvent) : FarReg :=
  match e.txn with
  | .read _ _ => r
  | .write a vs =>
    if a ≤ addr ∧ addr < a + vs.length then
      (if e.answer = .ok then .holds (vs.getD (addr - a) 0) else .unknown)
    else r

/-- What the transactions `bus`, oldest first, say of the register `addr`. -/
def regAfter (bus : List BusEvent) (addr : Nat) : FarReg := bus.foldl (regStep addr) .unknown

/-- What an output channel's register holds by the block's record of it (10_state.md R37). -/
def recordedReg (c : Config) : OutState → FarReg
  | .unknown => .unknown
  | .disabled => .holds 0
  | .driving w => .holds (outRaw c w)

/-- The pulse train of an output channel. -/
inductive PulseTrain where
  /-- any width, or no pulses (93_implementation_defined.md U7) -/
  | unknown
  /-- no pulses -/
  | suppressed
  /-- pulses of `w` microseconds -/
  | pulses (w : Nat)
deriving DecidableEq, Repr

/-- The pulse train the block's record stands for (10_state.md R37, R43, 41_pwm_output.md R158, R160). No time is given by
which the train changes (70_reset_and_hazards.md R262; log 16). -/
def pulseTrain : OutState → PulseTrain
  | .unknown => .unknown
  | .disabled => .suppressed
  | .driving w => .pulses w

/-- A register value `v` generates the pulse train `p` (20_memory.md R64). -/
def Generates (c : Config) (v : Nat) : PulseTrain → Prop
  | .unknown => True
  | .suppressed => v = 0
  | .pulses w => v ≠ 0 ∧ v = outRaw c w

end Sys2Proof.Machine
end

