-- ==== Sys2Proof/Safety.lean ====
section
/-! DEFINITION. The terms in which statements about the machine are written: when a command can run, which operands are
invalid (60_exceptions.md R222) and which transaction a command issues (20_memory.md R76), both as the spec's tables give
them and not through the meanings, the formulas of 42_tachometer.md R183, and the invariants of the state. -/

namespace Sys2Proof.Machine

/-! ## When a command can run -/

/-- The configuration is well formed (00_scope.md R12) and no command is in progress (70_reset_and_hazards.md R257). -/
abbrev Ready (s : State) : Prop := ConfigOk s.cfg ∧ s.pending = none

/-! ## The spec's tables -/

/-- A binary64 bit pattern of a finite value greater than zero (42_tachometer.md R188): positive patterns below that of
`+inf`. -/
def positiveFinite (dia : F64) : Bool := decide (0 < dia.toNat) && decide (dia.toNat < 0x7FF0000000000000)

/-- A byte that is no speed unit (30_encoding.md R96). -/
def badUnit (unit : Byte) : Bool := !(unit == 0x00 || unit == 0x01)

/-- The causes of INPUT_ERROR (60_exceptions.md R222). -/
def inputError (c : Config) : Instr → Bool
  | .readPwm ch => decide (4 ≤ ch.toNat)
  | .readPwms => false
  | .setPwm ch _ => decide (c.nOut ≤ ch.toNat)
  | .setPwms _ => false
  | .disableOutputs => false
  | .readTach ch => decide (2 ≤ ch.toNat) || decide (c.tprCfg.toList.getD ch.toNat 1 ≤ 0)
  | .readTachs => decide (c.tprCfg[0] ≤ 0) || decide (c.tprCfg[1] ≤ 0)
  | .readSpeed ch unit tpr dia =>
    decide (2 ≤ ch.toNat) || badUnit unit || decide (tpr.toInt ≤ 0) || !positiveFinite dia
  | .readSpeeds unit tpr dia => badUnit unit || decide (tpr.toInt ≤ 0) || !positiveFinite dia

/-- The pulse width a NormalizedControl programs, without the clamp, which changes nothing (41_pwm_output.md R150). -/
def affineWidth (v : BitVec 8) : Nat := (1500 + 125 * v.toInt / 32).toNat

/-- The raw value a NormalizedControl programs (41_pwm_output.md R151). -/
def affineRaw (c : Config) (v : BitVec 8) : Nat := affineWidth v * c.outTickNum / c.outTickDen

/-- The transaction of a command that reaches the Bridge (the table of 20_memory.md R76). -/
def tableTransaction (c : Config) : Instr → Transaction
  | .readPwm ch => .read (c.addrInBase + ch.toNat) 1
  | .readPwms => .read c.addrInBase 4
  | .setPwm ch v => .write (c.addrOutBase + ch.toNat) [affineRaw c v]
  | .setPwms v => .write c.addrOutBase (v.map (affineRaw c))
  | .disableOutputs => .write c.addrOutBase (List.replicate c.nOut 0)
  | .readTach ch => .read (c.addrTachBase + ch.toNat) 1
  | .readTachs => .read c.addrTachBase 2
  | .readSpeed ch _ _ _ => .read (c.addrTachBase + ch.toNat) 1
  | .readSpeeds _ _ _ => .read c.addrTachBase 2

/-- The Bridge transaction a command issues, if any (20_memory.md R76): none when it ends with INPUT_ERROR or ILLEGAL. -/
def transactionOf (c : Config) (i : Instr) : Option Transaction :=
  if i.wellFormed c.nOut && !inputError c i then some (tableTransaction c i) else none

/-- `a` is an answer that 20_memory.md R62 allows for the transaction. -/
def answerFits (c : Config) : Transaction → BridgeAnswer → Bool
  | _, .busError => true
  | .write _ _, .ok => true
  | .read _ n, .values vs => decide (vs.length = n) && vs.all fun v => decide (v < 2 ^ c.rawW)
  | _, _ => false

/-- The transaction covers only registers of the group it is meant for (20_memory.md R61). -/
def txnInGroups (c : Config) : Transaction → Prop
  | .read a n => 1 ≤ n ∧ ((c.addrInBase ≤ a ∧ a + n ≤ c.addrInBase + 4)
      ∨ (c.addrTachBase ≤ a ∧ a + n ≤ c.addrTachBase + 2))
  | .write a vs => 1 ≤ vs.length ∧ c.addrOutBase ≤ a ∧ a + vs.length ≤ c.addrOutBase + c.nOut

/-- The payload length of an OK response (30_encoding.md R102). -/
def okPayloadLength : Instr → Nat
  | .readPwm _ => 3
  | .readPwms => 12
  | .setPwm _ _ => 0
  | .setPwms _ => 0
  | .disableOutputs => 0
  | .readTach _ => 8
  | .readTachs => 16
  | .readSpeed _ _ _ _ => 8
  | .readSpeeds _ _ _ => 16

/-- `f` is a response that the command can get (30_encoding.md R101, R102). -/
def responseFits (i : Instr) : Frame → Prop
  | [] => False
  | st :: payload =>
    (st = 0x00 ∧ payload.length = okPayloadLength i) ∨ ((st = 0x01 ∨ st = 0x02 ∨ st = 0x03) ∧ payload = [])

/-- The commands of the Tachometer Speed Engine (42_tachometer.md). -/
def isTachometerCommand : Instr → Bool
  | .readTach _ => true
  | .readTachs => true
  | .readSpeed _ _ _ _ => true
  | .readSpeeds _ _ _ => true
  | .readPwm _ => false
  | .readPwms => false
  | .setPwm _ _ => false
  | .setPwms _ => false
  | .disableOutputs => false

/-! ## Values -/

/-- The 2 bytes of a width, little-endian (30_encoding.md R93, R103). -/
def widthBytes (w : Nat) : List Byte := [BitVec.ofNat 8 w, BitVec.ofNat 8 (w / 256)]

/-- The 8 bytes of a binary64 bit pattern, little-endian (30_encoding.md R93, R104). -/
def f64Bytes (x : F64) : List Byte := (List.range 8).map fun b => BitVec.ofNat 8 (x.toNat / 256 ^ b)

/-- `RPM64(p, tpr)` as 42_tachometer.md R183 writes it. -/
def rpmFormula (w : F64) (p : Nat) (tpr : Int) : F64 :=
  if p = 0 then 0 else f64Mul (f64Div (toF64 p) (toF64 tpr)) (f64Div (toF64 60) w)

/-- `SPEED64(p, tpr, d, KMH)` as 42_tachometer.md R183 writes it. -/
def kmhFormula (w : F64) (p : Nat) (tpr : Int) (d : F64) : F64 :=
  if p = 0 then 0
  else f64Div (f64Mul (f64Mul (rpmFormula w p tpr) (f64Div (f64Mul pi64 d) (toF64 100))) (toF64 60)) (toF64 1000)

/-- `SPEED64(p, tpr, d, unit)` as 42_tachometer.md R183 writes it; `unit` is the command's unit byte (30_encoding.md R96). -/
def speedFormula (w : F64) (p : Nat) (tpr : Int) (d : F64) (unit : Byte) : F64 :=
  if p = 0 then 0
  else if unit = 0x00 then kmhFormula w p tpr d
  else f64Mul (kmhFormula w p tpr d) (f64OfRatio 621371 1000000)

/-- What one sample does to a channel's counter and last-good value, and the SignalState it returns
(40_pwm_input.md R124, R125). -/
def LaneSpec (c : Config) (miss : Nat) (good : Option Nat) (raw : Nat) (miss' : Nat) (good' : Option Nat)
    (sig : SignalState) : Prop :=
  if c.plausMin ≤ raw * c.inUsNum / c.inUsDen ∧ raw * c.inUsNum / c.inUsDen ≤ c.plausMax then
    miss' = 0 ∧ good' = some (min (max (raw * c.inUsNum / c.inUsDen) 1000) 2000)
      ∧ sig = .valid (min (max (raw * c.inUsNum / c.inUsDen) 1000) 2000)
  else
    miss' = min (miss + 1) (c.losTimeout + 1) ∧ good' = good
      ∧ (if c.losTimeout < miss' then sig = .noSignal else ∃ w0, good = some w0 ∧ sig = .valid w0)

/-! ## Invariants of the state -/

/-- A PulseWidthMicroseconds value (00_scope.md R11, R19). -/
abbrev WidthOk (w : Nat) : Prop := 1000 ≤ w ∧ w ≤ 2000

/-- The bounds of one input channel's state (10_state.md R34, R35) and the invariant of R36. -/
abbrev InputOk (c : Config) (miss : Nat) (good : Option Nat) : Prop :=
  miss ≤ c.losTimeout + 1 ∧ (good = none → miss = c.losTimeout + 1) ∧ (∀ w ∈ good, WidthOk w)

/-- The bounds of an output record (10_state.md R37). -/
def outOk : OutState → Bool
  | .driving w => decide (WidthOk w)
  | .unknown => true
  | .disabled => true

/-- A command is in progress only under a well-formed configuration and with its own transaction in flight
(20_memory.md R76, R77). -/
abbrev PendingOk (s : State) : Prop :=
  ∀ p ∈ s.pending, ConfigOk s.cfg ∧ transactionOf s.cfg p.cmd = some p.txn

/-- The invariant of the block's state (10_state.md R34 to R37, R45). -/
abbrev BlockInv (s : State) : Prop :=
  (∀ i : Fin nIn, InputOk s.cfg s.miss[i.val] s.lastGood[i.val])
  ∧ s.out.length = s.cfg.nOut
  ∧ (∀ o ∈ s.out, outOk o = true)
  ∧ PendingOk s

/-- `out[k]` is the record that 10_state.md R37 defines from the writes issued since reset. -/
def RecordMatchesBus (s : State) : Prop :=
  s.out.length = s.cfg.nOut
  ∧ ∀ k o, s.out[k]? = some o → regAfter s.bus (s.cfg.addrOutBase + k) = recordedReg s.cfg o

/-- Every answered transaction stayed in its group (20_memory.md R61). -/
def BusInGroups (s : State) : Prop := ∀ e ∈ s.bus, txnInGroups s.cfg e.txn

/-- The block's own state is the same in both: the arrays of 10_state.md R30. -/
def SameBlock (s t : State) : Prop := t.miss = s.miss ∧ t.lastGood = s.lastGood ∧ t.out = s.out

/-- No output channel is driven: the state DISABLE_OUTPUTS leaves (41_pwm_output.md R158, R159). -/
def Released (s : State) : Prop := ∀ o ∈ s.out, pulseTrain o = .suppressed

end Sys2Proof.Machine
end

