-- ==== Sys2Proof/Certificates/Slice0/Obligations.lean ====
section
/-! DEFINITION. The statements for the provers. Each docstring names the rules of spec/ it formalises. -/

open Sys2Proof Sys2Proof.Machine

/-! ## Encoding (30_encoding.md) -/

/-- The decoder reads every command back from the frame that spells it (30_encoding.md R99, R100, R106). -/
def Obligations.DecodeInvertsEncode : Prop :=
  ∀ (nOut : Nat) (i : Instr), i.wellFormed nOut = true → decode nOut (encode i) = .ok i

/-- The decoder reads a command only from the frame that spells it, so no byte of a frame is dropped. -/
def Obligations.EncodeInvertsDecode : Prop :=
  ∀ (nOut : Nat) (f : Frame) (i : Instr), decode nOut f = .ok i → i.wellFormed nOut = true ∧ encode i = f

/-- A frame is ILLEGAL exactly when no row of the opcode map has its byte 0 and its length (30_encoding.md R99, R100,
R105). -/
def Obligations.IllegalExactlyOffTheOpcodeMap : Prop :=
  ∀ (nOut : Nat) (f : Frame),
    (∃ e, decode nOut f = .error e) ↔
      ¬ ∃ row ∈ [((0x10 : Byte), 2), (0x11, 1), (0x20, 3), (0x21, 1 + nOut), (0x22, 1), (0x30, 2), (0x31, 1),
          (0x32, 15), (0x33, 14)], f.head? = some row.1 ∧ f.length = row.2

/-- Frames of 95_test_vectors.md sections 2.1 and 3, one for each family of the opcode map. -/
def Obligations.SampleFramesDecode : Prop :=
  decode 4 [0x10, 0x01] = .ok (.readPwm 1)
  ∧ decode 4 [0x20, 0x03, 0x80] = .ok (.setPwm 3 (-128))
  ∧ decode 4 [0x21, 0x01, 0x02, 0x03, 0x04] = .ok (.setPwms [1, 2, 3, 4])
  ∧ decode 4 [0x32, 0x01, 0x00, 0x14, 0x00, 0x00, 0x00, 0x00, 0x00, 0x00, 0x00, 0x00, 0x00, 0x1A, 0x40]
      = .ok (.readSpeed 1 0 20 0x401A000000000000)
  ∧ decode 4 [0x33, 0x01, 0xFF, 0xFF, 0xFF, 0xFF, 0x00, 0x00, 0x00, 0x00, 0x00, 0x00, 0x1A, 0x40]
      = .ok (.readSpeeds 1 (-1) 0x401A000000000000)

/-! ## The step -/

/-- A step runs the command that the host's next frame decodes to (20_memory.md R70, 30_encoding.md R106). -/
def Obligations.StepRunsTheDecodedCommand : Prop :=
  ∀ (s : State) (f : Frame) (rest : List Frame) (i : Instr),
    ConfigOk s.cfg → s.pending = none → s.host = f :: rest → decode s.cfg.nOut f = .ok i →
    step s = exec i { s with host := rest }

/-- With no command in progress and no frame issued the block waits and nothing changes (70_reset_and_hazards.md R253,
60_exceptions.md R236); a command in progress is taken up again (the model's representation of 20_memory.md R77,
log 5). -/
def Obligations.StepIdlesOrResumes : Prop :=
  ∀ s : State,
    (s.pending = none → s.host = [] → step s = .next s)
    ∧ (∀ p, s.pending = some p → step s = exec p.cmd { s with pending := none })

/-- A frame that spells no command is answered with status ILLEGAL, and nothing else happens (60_exceptions.md R221). -/
def Obligations.IllegalFrameOnlyAnswers : Prop :=
  ∀ (s : State) (f : Frame) (rest : List Frame) (e : Illegal),
    ConfigOk s.cfg → s.pending = none → s.host = f :: rest → decode s.cfg.nOut f = .error e →
    step s = .next { s with host := rest, responses := s.responses ++ [[0x03]] }

/-- Placing a word where the next frame is taken makes the next step run it, for the test value of `N_OUT` (the model's
own loading convention, log 3 and log 15). -/
def Obligations.FetchedWordRuns : Prop :=
  ∀ (s : State) (nbits w : Nat) (i : Instr),
    ConfigOk s.cfg → s.cfg.nOut = 4 → decodeTableWord nbits w = some i →
    step (s.withFetchWord nbits w) = exec i { s with pending := none }

/-- No command has a meaning under an ill-formed configuration (00_scope.md R12). That a step refuses every frame under it,
whether or not the frame spells a command, is the model's choice (log 8). -/
def Obligations.IllFormedConfigurationRefused : Prop :=
  ∀ s : State, ¬ ConfigOk s.cfg →
    (∀ i, exec i s = .refused .illFormedConfiguration)
    ∧ (s.pending.isSome = true ∨ s.host ≠ [] → step s = .refused .illFormedConfiguration)

/-- A command issued while another is in progress has no meaning (70_reset_and_hazards.md R257,
93_implementation_defined.md U1; log 9). -/
def Obligations.CommandInProgressRefused : Prop :=
  ∀ (s : State) (p : Pending) (i : Instr),
    ConfigOk s.cfg → s.pending = some p → exec i s = .refused .commandInProgress

/-- A command whose transaction the Bridge never answers stays in progress for ever and changes nothing else
(20_memory.md R77; the stuck command is represented as log 5 says). -/
def Obligations.UnansweredCommandStaysStuck : Prop :=
  ∀ (i : Instr) (s : State) (t : Transaction),
    Ready s → transactionOf s.cfg i = some t → s.bridge = [] →
    exec i s = .next { s with pending := some ⟨i, t⟩ }
    ∧ ∀ n, Host.Core.run Sys2Proof.core n { s with pending := some ⟨i, t⟩ }
        = .next { s with pending := some ⟨i, t⟩ }

/-! ## Reset and invariants -/

/-- Every field after reset, for every configuration (10_state.md R45, 70_reset_and_hazards.md R250, R251). -/
def Obligations.ResetLeavesTheTabledState : Prop :=
  ∀ c : Config,
    (∀ i : Fin 4, (State.resetWith c).miss[i.val] = c.losTimeout + 1
      ∧ (State.resetWith c).lastGood[i.val] = none
      ∧ signalStateOf (State.resetWith c) i = some .noSignal)
    ∧ (State.resetWith c).out.length = c.nOut
    ∧ (∀ o ∈ (State.resetWith c).out, o = .unknown)
    ∧ (State.resetWith c).cfg = c
    ∧ (State.resetWith c).pending = none
    ∧ (State.resetWith c).bus = []

/-- The invariant holds after reset. -/
def Obligations.ResetMeetsTheInvariant : Prop :=
  (∀ c : Config, BlockInv (State.resetWith c)) ∧ BlockInv State.reset ∧ Ready State.reset

/-- Every step keeps the bounds of 10_state.md R34, R35 and R37 and the invariant of R36. -/
def Obligations.StepKeepsTheInvariant : Prop :=
  ∀ s t : State, BlockInv s → step s = .next t → BlockInv t

/-- From a state that meets the invariant no step faults: the states of 93_implementation_defined.md U12 are not
reached, so `SignalStateOf` is always defined (10_state.md R36). -/
def Obligations.StepNeverFaults : Prop :=
  ∀ s : State, BlockInv s →
    (∀ f, step s ≠ .fault f) ∧ (∀ i, (signalStateOf s i).isSome = true)

/-- No run from reset faults, whatever the configuration, the frames and the Bridge's answers are. -/
def Obligations.NoRunFromResetFaults : Prop :=
  ∀ (c : Config) (frames : List Frame) (answers : List BridgeAnswer) (n : Nat) (f : Fault),
    Host.Core.run Sys2Proof.core n { State.resetWith c with host := frames, bridge := answers } ≠ .fault f

/-- The configuration never changes (10_state.md R39, 70_reset_and_hazards.md R252). -/
def Obligations.StepKeepsTheConfiguration : Prop :=
  ∀ s t : State, step s = .next t → t.cfg = s.cfg

/-- After reset nothing is known of any output register, and every record says so (70_reset_and_hazards.md R251). -/
def Obligations.ResetRecordMatchesTheBus : Prop :=
  ∀ c : Config, RecordMatchesBus (State.resetWith c) ∧ BusInGroups (State.resetWith c)

/-- Every step keeps `out[k]` the record that 10_state.md R37 defines: what the last write that covers channel `k` was,
and how it was answered. -/
def Obligations.StepKeepsTheOutputRecord : Prop :=
  ∀ s t : State, RecordMatchesBus s → step s = .next t → RecordMatchesBus t

/-- The block never issues a transaction outside its three groups, reads only capture and count registers and writes
only compare registers (20_memory.md R61). -/
def Obligations.TransactionsStayInTheirGroups : Prop :=
  ∀ s t : State, BusInGroups s → step s = .next t → BusInGroups t

/-- Over any run the transactions and the responses are only appended to: nothing issued is withdrawn or reordered
(20_memory.md R78). -/
def Obligations.RunsOnlyAppendToThePorts : Prop :=
  ∀ (n : Nat) (s t : State), Host.Core.run Sys2Proof.core n s = .next t →
    s.bus <+: t.bus ∧ s.responses <+: t.responses ∧ t.host <:+ s.host ∧ t.bridge <:+ s.bridge

/-! ## Every command -/

/-- Every command that can run completes with one response when the Bridge answers it as 20_memory.md R62 says
(20_memory.md R70, 60_exceptions.md R232). -/
def Obligations.EveryCommandCompletes : Prop :=
  ∀ (i : Instr) (s : State), Ready s → BlockInv s →
    (∀ x, transactionOf s.cfg i = some x → ∃ a rest, s.bridge = a :: rest ∧ answerFits s.cfg x a = true) →
    ∃ t f, exec i s = .next t ∧ t.pending = none ∧ t.responses = s.responses ++ [f]

/-- A command issues the transaction of its row of the table of 20_memory.md R76, once, or none. A command whose transaction
is not answered yet is represented as log 5 says. -/
def Obligations.CommandIssuesItsTabledTransaction : Prop :=
  ∀ (i : Instr) (s t : State), exec i s = .next t →
    match transactionOf s.cfg i with
    | none => t.bus = s.bus ∧ t.bridge = s.bridge ∧ t.pending = none
    | some x =>
      (s.bridge = [] ∧ t.bus = s.bus ∧ t.pending = some ⟨i, x⟩)
      ∨ ∃ a rest, s.bridge = a :: rest ∧ t.bridge = rest ∧ t.bus = s.bus ++ [⟨x, a⟩] ∧ t.pending = none

/-- A command that is not left waiting (log 5) ends with exactly one response, of the form 30_encoding.md R101 and R102
give. -/
def Obligations.CommandEndsWithOneResponse : Prop :=
  ∀ (i : Instr) (s t : State), exec i s = .next t →
    (t.pending.isSome = true ∧ t.responses = s.responses)
    ∨ (t.pending = none ∧ ∃ f, t.responses = s.responses ++ [f] ∧ responseFits i f)

/-- A command with an invalid operand, or an invalid configured ticks per revolution, ends with INPUT_ERROR: no
transaction, no state written, no payload; and nothing else is answered INPUT_ERROR (60_exceptions.md R222,
42_tachometer.md R187, R188). -/
def Obligations.InputErrorOnlyAnswers : Prop :=
  ∀ (i : Instr) (s : State), Ready s →
    (inputError s.cfg i = true → exec i s = .next { s with responses := s.responses ++ [[0x02]] })
    ∧ (∀ t, exec i s = .next t → t.responses = s.responses ++ [[0x02]] → inputError s.cfg i = true)

/-- A read that the Bridge fails ends with BUS_ERROR and writes no state (40_pwm_input.md R126, 60_exceptions.md R224). -/
def Obligations.ReadBusErrorWritesNoState : Prop :=
  ∀ (i : Instr) (s : State) (a n : Nat) (rest : List BridgeAnswer),
    Ready s → transactionOf s.cfg i = some (.read a n) → s.bridge = .busError :: rest →
    exec i s = .next { s with
      bridge := rest, bus := s.bus ++ [⟨.read a n, .busError⟩], responses := s.responses ++ [[0x01]] }

/-- A write that the Bridge fails ends with BUS_ERROR and leaves every channel it covers, and no other, `Unknown`; nothing
is then known of their registers (20_memory.md R67). -/
def Obligations.WriteBusErrorForgetsCoveredChannels : Prop :=
  ∀ (i : Instr) (s : State) (a : Nat) (vs : List Nat) (rest : List BridgeAnswer),
    Ready s → transactionOf s.cfg i = some (.write a vs) → s.bridge = .busError :: rest →
    exec i s = .next { s with
      out := s.out.mapIdx fun k o =>
        if a ≤ s.cfg.addrOutBase + k ∧ s.cfg.addrOutBase + k < a + vs.length then .unknown else o
      bridge := rest, bus := s.bus ++ [⟨.write a vs, .busError⟩], responses := s.responses ++ [[0x01]] }
    ∧ ∀ r, a ≤ r → r < a + vs.length → regAfter (s.bus ++ [⟨.write a vs, .busError⟩]) r = .unknown

/-- Each command writes only its own part of the block's state (10_state.md R34, R37, R41), and no register but those its
write covers. -/
def Obligations.CommandsWriteOnlyTheirOwnState : Prop :=
  ∀ (i : Instr) (s t : State), exec i s = .next t →
    (t.cfg = s.cfg ∧ t.host = s.host)
    ∧ (match i with
      | .readPwm ch => t.out = s.out ∧ ∀ k : Fin 4, k.val ≠ ch.toNat →
          t.miss[k.val] = s.miss[k.val] ∧ t.lastGood[k.val] = s.lastGood[k.val]
      | .readPwms => t.out = s.out
      | .setPwm ch _ => t.miss = s.miss ∧ t.lastGood = s.lastGood ∧ ∀ k, k ≠ ch.toNat → t.out[k]? = s.out[k]?
      | .setPwms _ => t.miss = s.miss ∧ t.lastGood = s.lastGood
      | .disableOutputs => t.miss = s.miss ∧ t.lastGood = s.lastGood
      | .readTach _ => SameBlock s t
      | .readTachs => SameBlock s t
      | .readSpeed _ _ _ _ => SameBlock s t
      | .readSpeeds _ _ _ => SameBlock s t)
    ∧ ∀ r, (∀ a vs, transactionOf s.cfg i = some (.write a vs) → ¬ (a ≤ r ∧ r < a + vs.length)) →
        regAfter t.bus r = regAfter s.bus r

/-! ## PWM Input Decoder (40_pwm_input.md) -/

/-- READ_PWM with a plausible sample (40_pwm_input.md R124, R127): the whole next state. It holds after any number of bad
samples, which is R130. -/
def Obligations.ReadPwmValidSample : Prop :=
  ∀ (ch : Byte) (hch : ch.toNat < 4) (s : State) (raw us w : Nat) (rest : List BridgeAnswer),
    Ready s → s.bridge = .values [raw] :: rest → raw < 2 ^ s.cfg.rawW →
    us = raw * s.cfg.inUsNum / s.cfg.inUsDen → s.cfg.plausMin ≤ us → us ≤ s.cfg.plausMax →
    w = min (max us 1000) 2000 →
    exec (.readPwm ch) s = .next { s with
      miss := s.miss.set ch.toNat 0
      lastGood := s.lastGood.set ch.toNat (some w)
      bridge := rest
      bus := s.bus ++ [⟨.read (s.cfg.addrInBase + ch.toNat) 1, .values [raw]⟩]
      responses := s.responses ++ [[0x00, 0x01] ++ widthBytes w] }

/-- READ_PWM with an implausible or missing sample (40_pwm_input.md R125, R127): the counter saturates, the last-good value
stays, and it is returned while the counter does not exceed the timeout. -/
def Obligations.ReadPwmBadSample : Prop :=
  ∀ (ch : Byte) (hch : ch.toNat < 4) (s : State) (raw us m : Nat) (rest : List BridgeAnswer),
    Ready s → s.bridge = .values [raw] :: rest → raw < 2 ^ s.cfg.rawW →
    us = raw * s.cfg.inUsNum / s.cfg.inUsDen → ¬ (s.cfg.plausMin ≤ us ∧ us ≤ s.cfg.plausMax) →
    m = min (s.miss[ch.toNat] + 1) (s.cfg.losTimeout + 1) →
    (s.cfg.losTimeout < m → exec (.readPwm ch) s = .next { s with
      miss := s.miss.set ch.toNat m
      bridge := rest
      bus := s.bus ++ [⟨.read (s.cfg.addrInBase + ch.toNat) 1, .values [raw]⟩]
      responses := s.responses ++ [[0x00, 0x00, 0x00, 0x00]] })
    ∧ (∀ w0, m ≤ s.cfg.losTimeout → s.lastGood[ch.toNat] = some w0 → exec (.readPwm ch) s = .next { s with
      miss := s.miss.set ch.toNat m
      bridge := rest
      bus := s.bus ++ [⟨.read (s.cfg.addrInBase + ch.toNat) 1, .values [raw]⟩]
      responses := s.responses ++ [[0x00, 0x01] ++ widthBytes w0] })

/-- The one fault, in the states of 93_implementation_defined.md U12 that no run reaches: a bad sample before the timeout on
a channel without a last-good value (log 10). -/
def Obligations.HeldValueMissingFaults : Prop :=
  ∀ (ch : Byte) (hch : ch.toNat < 4) (s : State) (raw : Nat) (rest : List BridgeAnswer),
    Ready s → s.bridge = .values [raw] :: rest → raw < 2 ^ s.cfg.rawW →
    raw * s.cfg.inUsNum / s.cfg.inUsDen < s.cfg.plausMin →
    s.miss[ch.toNat] < s.cfg.losTimeout → s.lastGood[ch.toNat] = none →
    exec (.readPwm ch) s = .fault .heldValueMissing

/-- READ_PWMS decodes the four samples of one answer lane by lane (40_pwm_input.md R128). -/
def Obligations.ReadPwmsDecodesEveryLane : Prop :=
  ∀ (s : State) (raws : Vector Nat 4) (rest : List BridgeAnswer),
    Ready s → BlockInv s → s.bridge = .values raws.toList :: rest → (∀ i : Fin 4, raws[i.val] < 2 ^ s.cfg.rawW) →
    ∃ (m : Vector Nat 4) (g : Vector (Option Nat) 4) (sig : Vector SignalState 4),
      exec .readPwms s = .next { s with
        miss := m
        lastGood := g
        bridge := rest
        bus := s.bus ++ [⟨.read s.cfg.addrInBase 4, .values raws.toList⟩]
        responses := s.responses ++ [(0x00 : Byte) :: sig.toList.flatMap signalRecord] }
      ∧ ∀ i : Fin 4, LaneSpec s.cfg s.miss[i.val] s.lastGood[i.val] raws[i.val] m[i.val] g[i.val] sig[i.val]

/-- READ_PWMS returns and writes what READ_PWM 0, 1, 2, 3 do on the same raw values (40_pwm_input.md R129). -/
def Obligations.BatchReadEqualsFourReads : Prop :=
  ∀ (s : State) (a b c d : Nat) (rest : List BridgeAnswer),
    Ready s → BlockInv s → a < 2 ^ s.cfg.rawW → b < 2 ^ s.cfg.rawW → c < 2 ^ s.cfg.rawW → d < 2 ^ s.cfg.rawW →
    ∃ (t u0 u1 u2 u3 : State) (p0 p1 p2 p3 : List Byte),
      exec .readPwms { s with bridge := .values [a, b, c, d] :: rest } = .next t
      ∧ exec (.readPwm 0) { s with bridge := .values [a] :: .values [b] :: .values [c] :: .values [d] :: rest }
          = .next u0
      ∧ exec (.readPwm 1) u0 = .next u1 ∧ exec (.readPwm 2) u1 = .next u2 ∧ exec (.readPwm 3) u2 = .next u3
      ∧ t.miss = u3.miss ∧ t.lastGood = u3.lastGood ∧ t.out = u3.out
      ∧ u3.responses = s.responses ++ [(0x00 : Byte) :: p0, 0x00 :: p1, 0x00 :: p2, 0x00 :: p3]
      ∧ t.responses = s.responses ++ [(0x00 : Byte) :: (p0 ++ p1 ++ p2 ++ p3)]

/-- What READ_PWM returns is the SignalState of the channel afterwards, so a held value is never returned once the counter
exceeds the timeout (10_state.md R35, R36, R42); a Valid width lies in [1000, 2000]. -/
def Obligations.ReadPwmReturnsTheSignalState : Prop :=
  ∀ (ch : Fin 4) (s : State) (raw : Nat) (rest : List BridgeAnswer),
    Ready s → BlockInv s → s.bridge = .values [raw] :: rest → raw < 2 ^ s.cfg.rawW →
    ∃ t sig, exec (.readPwm (BitVec.ofNat 8 ch.val)) s = .next t
      ∧ signalStateOf t ch = some sig
      ∧ t.responses = s.responses ++ [(0x00 : Byte) :: signalRecord sig]
      ∧ (t.miss[ch.val] > s.cfg.losTimeout ↔ sig = .noSignal)
      ∧ (∀ w, sig = .valid w → 1000 ≤ w ∧ w ≤ 2000)

/-- Consecutive bad samples on a live channel: the first `LOS_TIMEOUT` return the held width and every later one NoSignal,
however many there are (40_pwm_input.md R125, 70_reset_and_hazards.md R261). -/
def Obligations.NoSignalAfterTheTimeout : Prop :=
  ∀ (ch : Byte) (hch : ch.toNat < 4) (s : State) (w : Nat) (raws : List Nat) (more : List Frame)
    (rest : List BridgeAnswer),
    Ready s → s.miss[ch.toNat] = 0 → s.lastGood[ch.toNat] = some w →
    (∀ raw ∈ raws, raw < 2 ^ s.cfg.rawW
      ∧ ¬ (s.cfg.plausMin ≤ raw * s.cfg.inUsNum / s.cfg.inUsDen
        ∧ raw * s.cfg.inUsNum / s.cfg.inUsDen ≤ s.cfg.plausMax)) →
    s.host = List.replicate raws.length [0x10, ch] ++ more →
    s.bridge = raws.map (fun raw => .values [raw]) ++ rest →
    ∃ t : State, Host.Core.run Sys2Proof.core raws.length s = .next t
      ∧ t.miss[ch.toNat] = min raws.length (s.cfg.losTimeout + 1)
      ∧ t.lastGood = s.lastGood
      ∧ t.responses = s.responses ++ (List.range raws.length).map fun j =>
          if j < s.cfg.losTimeout then [0x00, 0x01] ++ widthBytes w else [0x00, 0x00, 0x00, 0x00]

/-- NORM is monotone, and takes the values 40_pwm_input.md R133 gives at 1000, 1500, 1750 and 2000. -/
def Obligations.NormalizerIsMonotone : Prop :=
  (∀ a b : Int, a ≤ b → normControl a ≤ normControl b)
  ∧ normControl 1000 = -128 ∧ normControl 1500 = 0 ∧ normControl 1750 = 64 ∧ normControl 2000 = 128

/-- Loopback (40_pwm_input.md R133, 95_test_vectors.md L1.6): with equal tick ratios and a band that holds [1000, 2000],
programming `v` and decoding the programmed pulse recovers the width, and NORM of it is `v` or `v - 1`. -/
def Obligations.LoopbackRecoversTheControl : Prop :=
  ∀ (s : State) (v : BitVec 8) (k i : Byte) (hi : i.toNat < 4) (rest : List BridgeAnswer),
    Ready s → s.cfg.inUsNum = s.cfg.inUsDen → s.cfg.outTickNum = s.cfg.outTickDen →
    s.cfg.plausMin ≤ 1000 → 2000 ≤ s.cfg.plausMax → k.toNat < s.cfg.nOut →
    s.bridge = .ok :: .values [affineRaw s.cfg v] :: rest →
    ∃ t u : State, exec (.setPwm k v) s = .next t ∧ exec (.readPwm i) t = .next u
      ∧ u.lastGood[i.toNat] = some (affineWidth v) ∧ u.miss[i.toNat] = 0
      ∧ u.responses = s.responses ++ [[0x00], [0x00, 0x01] ++ widthBytes (affineWidth v)]
      ∧ (normControl (affineWidth v) = v.toInt ∨ normControl (affineWidth v) = v.toInt - 1)
      ∧ (normControl (affineWidth v) = v.toInt ↔ (32 : Int) ∣ 125 * v.toInt)

/-! ## PWM Output Generator (41_pwm_output.md) -/

/-- Every programmed width is in [1000, 1996] and its raw value is in [1, 2^RAW_W - 1], never the suppressed-pulse value 0
(41_pwm_output.md R150, R151). -/
def Obligations.ProgrammedRawIsNeverSuppressed : Prop :=
  ∀ (c : Config) (v : BitVec 8), ConfigOk c →
    pw v = affineWidth v ∧ 1000 ≤ pw v ∧ pw v ≤ 1996
    ∧ 1 ≤ outRaw c (pw v) ∧ outRaw c (pw v) ≤ 2 ^ c.rawW - 1
    ∧ (∀ w, 1000 ≤ w → w ≤ 2000 → 1 ≤ outRaw c w ∧ outRaw c w ≤ 2 ^ c.rawW - 1)

/-- SET_PWM answered `Ok` drives its own channel at the affine width and touches no other (41_pwm_output.md R153, R154):
the whole next state. -/
def Obligations.SetPwmDrivesItsChannelAlone : Prop :=
  ∀ (ch : Byte) (v : BitVec 8) (s : State) (rest : List BridgeAnswer),
    Ready s → ch.toNat < s.cfg.nOut → s.bridge = .ok :: rest →
    exec (.setPwm ch v) s = .next { s with
      out := s.out.set ch.toNat (.driving (1500 + 125 * v.toInt / 32).toNat)
      bridge := rest
      bus := s.bus ++ [⟨.write (s.cfg.addrOutBase + ch.toNat)
        [(1500 + 125 * v.toInt / 32).toNat * s.cfg.outTickNum / s.cfg.outTickDen], .ok⟩]
      responses := s.responses ++ [[0x00]] }

/-- SET_PWMS answered `Ok` drives every channel at its own width (41_pwm_output.md R156): the whole next state. -/
def Obligations.SetPwmsDrivesEveryChannel : Prop :=
  ∀ (v : List (BitVec 8)) (s : State) (rest : List BridgeAnswer),
    Ready s → s.out.length = s.cfg.nOut → v.length = s.cfg.nOut → s.bridge = .ok :: rest →
    exec (.setPwms v) s = .next { s with
      out := v.map fun x => .driving (affineWidth x)
      bridge := rest
      bus := s.bus ++ [⟨.write s.cfg.addrOutBase (v.map (affineRaw s.cfg)), .ok⟩]
      responses := s.responses ++ [[0x00]] }

/-- A SET_PWMS term with another number of operands has a frame of the wrong length, which is ILLEGAL (30_encoding.md R105;
log 14). -/
def Obligations.SetPwmsOfAnotherLengthIsIllegal : Prop :=
  ∀ (v : List (BitVec 8)) (s : State), Ready s → v.length ≠ s.cfg.nOut →
    exec (.setPwms v) s = .next { s with responses := s.responses ++ [[0x03]] }

/-- DISABLE_OUTPUTS answered `Ok` releases every channel with one write of zeros (41_pwm_output.md R159): the whole next
state, in which no channel pulses. -/
def Obligations.DisableOutputsReleasesEveryChannel : Prop :=
  ∀ (s : State) (rest : List BridgeAnswer),
    Ready s → s.out.length = s.cfg.nOut → s.bridge = .ok :: rest →
    ∃ t, exec .disableOutputs s = .next t
      ∧ t = { s with
          out := List.replicate s.cfg.nOut .disabled
          bridge := rest
          bus := s.bus ++ [⟨.write s.cfg.addrOutBase (List.replicate s.cfg.nOut 0), .ok⟩]
          responses := s.responses ++ [[0x00]] }
      ∧ Released t
      ∧ ∀ k, k < s.cfg.nOut → regAfter t.bus (s.cfg.addrOutBase + k) = .holds 0

/-- Disabled is not neutral: the records, the pulse trains and the register values of DISABLE_OUTPUTS and of SET_PWM k, 0
all differ (41_pwm_output.md R158, R160). -/
def Obligations.DisabledIsNotNeutral : Prop :=
  ∀ (s : State) (k : Byte) (rest : List BridgeAnswer),
    Ready s → s.out.length = s.cfg.nOut → k.toNat < s.cfg.nOut → s.bridge = .ok :: rest →
    ∃ (t u : State) (v : Nat), exec .disableOutputs s = .next t ∧ exec (.setPwm k 0) s = .next u
      ∧ t.out[k.toNat]? = some .disabled ∧ u.out[k.toNat]? = some (.driving 1500)
      ∧ pulseTrain .disabled = .suppressed ∧ pulseTrain (.driving 1500) = .pulses 1500
      ∧ regAfter t.bus (s.cfg.addrOutBase + k.toNat) = .holds 0
      ∧ regAfter u.bus (s.cfg.addrOutBase + k.toNat) = .holds v ∧ v ≠ 0

/-- SET_PWMS leaves the records and the registers that SET_PWM 0, v[0], ..., SET_PWM N_OUT-1, v[N_OUT-1] would, in one
transaction instead of `N_OUT`, when every write is answered `Ok` (41_pwm_output.md R157). -/
def Obligations.SetPwmsEqualsSetPwmSequence : Prop :=
  ∀ (s : State) (v : List (BitVec 8)),
    Ready s → s.out.length = s.cfg.nOut → v.length = s.cfg.nOut →
    ∃ t u : State,
      exec (.setPwms v) { s with bridge := [.ok] } = .next t
      ∧ Host.Core.run Sys2Proof.core s.cfg.nOut { s with
          host := v.mapIdx fun k x => [0x20, BitVec.ofNat 8 k, x]
          bridge := List.replicate s.cfg.nOut .ok } = .next u
      ∧ t.out = u.out
      ∧ (∀ k, k < s.cfg.nOut →
          regAfter t.bus (s.cfg.addrOutBase + k) = regAfter u.bus (s.cfg.addrOutBase + k))
      ∧ t.bus.length = s.bus.length + 1 ∧ u.bus.length = s.bus.length + s.cfg.nOut

/-- Repeating a write that is answered `Ok` both times leaves the records and the registers as one such write does
(41_pwm_output.md R155, 20_memory.md R75). -/
def Obligations.RepeatedWritesAreIdempotent : Prop :=
  ∀ (i : Instr) (s : State) (a : Nat) (vs : List Nat) (rest : List BridgeAnswer),
    Ready s → transactionOf s.cfg i = some (.write a vs) → s.bridge = .ok :: .ok :: rest →
    ∃ t u : State, exec i s = .next t ∧ exec i t = .next u
      ∧ SameBlock t u ∧ ∀ r, regAfter u.bus r = regAfter t.bus r

/-- A known record tells the pulse train: under the invariant and the bus record, a `Disabled` channel's register holds the
suppressed-pulse value and a `Driving(w)` channel's holds the non-zero raw value of `w` (20_memory.md R64, R66,
41_pwm_output.md R160). -/
def Obligations.KnownRecordTellsThePulseTrain : Prop :=
  ∀ (s : State) (k : Nat) (o : OutState),
    ConfigOk s.cfg → BlockInv s → RecordMatchesBus s → s.out[k]? = some o → o ≠ .unknown →
    ∃ v, regAfter s.bus (s.cfg.addrOutBase + k) = .holds v ∧ Generates s.cfg v (pulseTrain o)

/-! ## Tachometer Speed Engine (42_tachometer.md) -/

/-- READ_TACH answers the binary64 RPM with the configured ticks per revolution (42_tachometer.md R183, R190): the whole
next state. -/
def Obligations.ReadTachAnswersTheRpm : Prop :=
  ∀ (ch : Byte) (hch : ch.toNat < 2) (s : State) (p : Nat) (rest : List BridgeAnswer),
    Ready s → (0 : Int) < s.cfg.tprCfg[ch.toNat] → s.bridge = .values [p] :: rest → p < 2 ^ s.cfg.rawW →
    exec (.readTach ch) s = .next { s with
      bridge := rest
      bus := s.bus ++ [⟨.read (s.cfg.addrTachBase + ch.toNat) 1, .values [p]⟩]
      responses := s.responses ++ [(0x00 : Byte) :: f64Bytes (rpmFormula s.cfg.wTach p s.cfg.tprCfg[ch.toNat])] }

/-- READ_TACHS answers both RPM values from one read, each with its own ticks per revolution (42_tachometer.md R191): the
whole next state. -/
def Obligations.ReadTachsAnswersBothRpms : Prop :=
  ∀ (s : State) (p q : Nat) (rest : List BridgeAnswer),
    Ready s → (0 : Int) < s.cfg.tprCfg[0] → (0 : Int) < s.cfg.tprCfg[1] → s.bridge = .values [p, q] :: rest →
    p < 2 ^ s.cfg.rawW → q < 2 ^ s.cfg.rawW →
    exec .readTachs s = .next { s with
      bridge := rest
      bus := s.bus ++ [⟨.read s.cfg.addrTachBase 2, .values [p, q]⟩]
      responses := s.responses ++ [(0x00 : Byte) :: (f64Bytes (rpmFormula s.cfg.wTach p s.cfg.tprCfg[0])
        ++ f64Bytes (rpmFormula s.cfg.wTach q s.cfg.tprCfg[1]))] }

/-- READ_SPEED answers the binary64 speed in the operand unit (42_tachometer.md R183, R192): the whole next state. -/
def Obligations.ReadSpeedAnswersTheSpeed : Prop :=
  ∀ (ch unit : Byte) (tpr : BitVec 32) (dia : F64) (s : State) (p : Nat) (rest : List BridgeAnswer),
    Ready s → ch.toNat < 2 → (unit = 0x00 ∨ unit = 0x01) → (0 : Int) < tpr.toInt → positiveFinite dia = true →
    s.bridge = .values [p] :: rest → p < 2 ^ s.cfg.rawW →
    exec (.readSpeed ch unit tpr dia) s = .next { s with
      bridge := rest
      bus := s.bus ++ [⟨.read (s.cfg.addrTachBase + ch.toNat) 1, .values [p]⟩]
      responses := s.responses ++ [(0x00 : Byte) :: f64Bytes (speedFormula s.cfg.wTach p tpr.toInt dia unit)] }

/-- READ_SPEEDS answers both speeds from one read with the shared operands (42_tachometer.md R193): the whole next
state. -/
def Obligations.ReadSpeedsAnswersBothSpeeds : Prop :=
  ∀ (unit : Byte) (tpr : BitVec 32) (dia : F64) (s : State) (p q : Nat) (rest : List BridgeAnswer),
    Ready s → (unit = 0x00 ∨ unit = 0x01) → (0 : Int) < tpr.toInt → positiveFinite dia = true →
    s.bridge = .values [p, q] :: rest → p < 2 ^ s.cfg.rawW → q < 2 ^ s.cfg.rawW →
    exec (.readSpeeds unit tpr dia) s = .next { s with
      bridge := rest
      bus := s.bus ++ [⟨.read s.cfg.addrTachBase 2, .values [p, q]⟩]
      responses := s.responses ++ [(0x00 : Byte) :: (f64Bytes (speedFormula s.cfg.wTach p tpr.toInt dia unit)
        ++ f64Bytes (speedFormula s.cfg.wTach q tpr.toInt dia unit))] }

/-- Zero pulses give speed 0 exactly, eight zero bytes, whatever the valid operands are (42_tachometer.md R185). -/
def Obligations.ZeroPulsesGiveZero : Prop :=
  ∀ (i : Instr) (s : State) (a n : Nat) (rest : List BridgeAnswer),
    Ready s → isTachometerCommand i = true →
    transactionOf s.cfg i = some (.read a n) → s.bridge = .values (List.replicate n 0) :: rest →
    ∃ t, exec i s = .next t ∧ t.responses = s.responses ++ [(0x00 : Byte) :: List.replicate (8 * n) 0x00]

/-- The mph result is the km/h result times `F64(0.621371)`, rounded once, zero pulses included (42_tachometer.md R184). -/
def Obligations.MphIsKmhTimesTheFactor : Prop :=
  ∀ (w : F64) (p : Nat) (tpr : Int) (d : F64),
    speed64 w p tpr d .mph = f64Mul (speed64 w p tpr d .kmh) (f64OfRatio 621371 1000000)

/-- Under 00_scope.md R12, RPM64 is `+0.0` or finite and positive, and SPEED64 is never NaN and never negative
(42_tachometer.md R186). -/
def Obligations.RatesAreNeverNaN : Prop :=
  ∀ (w : F64) (p : Nat) (tpr : Int) (d : F64) (u : SpeedUnit),
    windowOk w = true → p < 2 ^ 32 → 1 ≤ tpr → tpr < 2 ^ 31 → diaOk d = true →
    (f64IsFinite (rpm64 w p tpr) = true ∧ f64Sign (rpm64 w p tpr) = false
      ∧ (f64Mag (rpm64 w p tpr) = 0 ↔ p = 0))
    ∧ (f64IsNaN (speed64 w p tpr d u) = false ∧ f64Sign (speed64 w p tpr d u) = false)

/-! ## Binary64 (00_scope.md R15) -/

/-- Rounding gives the nearest binary64 value, the one with an even last bit on a tie; it overflows to infinity exactly from
half a step above the greatest finite value on; it keeps the sign and makes no NaN (00_scope.md R15: nearest, ties to
even, as the spec takes it from general knowledge, log 12). Magnitudes are in units of `2^-1074`. -/
def Obligations.RoundingIsToNearestEven : Prop :=
  ∀ (neg : Bool) (num den : Nat), 0 < den →
    f64Sign (f64Round neg num den) = neg ∧ f64IsNaN (f64Round neg num den) = false
    ∧ (f64IsInf (f64Round neg num den) = true ↔ (2 ^ 2098 - 2 ^ 2044) * den ≤ num)
    ∧ (f64IsFinite (f64Round neg num den) = true → ∀ z : F64, f64IsFinite z = true →
        |(f64Mag (f64Round neg num den) * den : Int) - num| ≤ |(f64Mag z * den : Int) - num|
        ∧ (|(f64Mag (f64Round neg num den) * den : Int) - num| = |(f64Mag z * den : Int) - num| →
            f64Mag z = f64Mag (f64Round neg num den) ∨ f64Frac (f64Round neg num den) % 2 = 0))

/-- `toF64(n)` is exact for `|n| <= 2^53` (00_scope.md R15, 42_tachometer.md R182; the format is the spec's general knowledge,
log 12). -/
def Obligations.ToF64IsExact : Prop :=
  ∀ n : Int, n.natAbs ≤ 2 ^ 53 →
    f64IsFinite (toF64 n) = true ∧ f64Scaled (toF64 n) = n * 2 ^ 1074

/-- `PI64` is the binary64 value nearest to π, and `F64(0.621371)` the one nearest to its decimal constant (00_scope.md R15,
42_tachometer.md R183; the format is the spec's general knowledge, log 12). -/
def Obligations.ConstantsAreNearest : Prop :=
  (∀ z : F64, f64IsFinite z = true →
    |(f64Scaled pi64 : ℝ) - Real.pi * 2 ^ 1074| ≤ |(f64Scaled z : ℝ) - Real.pi * 2 ^ 1074|)
  ∧ f64cMph = f64OfRatio 621371 1000000
  ∧ f64c60 = toF64 60 ∧ f64c100 = toF64 100 ∧ f64c1000 = toF64 1000

/-! ## Assembler syntax (30_encoding.md R107, R108) -/

/-- The four pseudo-commands assemble to what their expansions assemble to (30_encoding.md R108). -/
def Obligations.PseudoCommandsExpand : Prop :=
  ∀ (c : Config) (t : List Char),
    assemble c "READ_RPM" [t] = assemble c "READ_TACH" [t]
    ∧ assemble c "NEUTRAL" [t] = assemble c "SET_PWM" [t, ['0']]
    ∧ assemble c "NEUTRAL_ALL" [] = assemble c "SET_PWMS" (List.replicate c.nOut ['0'])
    ∧ assemble c "RELEASE_ALL" [] = assemble c "DISABLE_OUTPUTS" []

/-- Every command that a line of assembler text spells is well formed, and its frame decodes to it (30_encoding.md R106,
R107; the spacing of a line is the model's choice, log 20). -/
def Obligations.AssembledCommandsDecode : Prop :=
  ∀ (c : Config) (line : String) (i : Instr),
    assembleLine c line = some i → i.wellFormed c.nOut = true ∧ decode c.nOut (encode i) = .ok i
end

