-- ==== Sys2Proof/Laws/Operands.lean ====
section
/-! SUPPORT. What the operand functions compute, in the terms of the spec's formulas. -/

namespace Sys2Proof.Machine

theorem configRules {c : Config} (h : ConfigOk c) : ConfigRules c := of_decide_eq_true h

theorem clampWidth_eq (us : Nat) : clampWidth us = min (max us 1000) 2000 := by
  simp only [clampWidth, clamp, pwMin, pwMax]; omega

theorem plausible_iff (c : Config) (us : Nat) : plausible c us = true ↔ c.plausMin ≤ us ∧ us ≤ c.plausMax := by
  simp [plausible]

/-- The clamp of the affine map changes nothing (41_pwm_output.md R150, 90_conflicts.md C3). -/
theorem pw_eq_affineWidth (v : BitVec 8) : pw v = affineWidth v := by
  have h1 := v.toInt_lt
  have h2 := v.le_toInt
  simp only [pw, affineWidth, clamp, pwMin, pwMax, pwCenter]
  omega

theorem affineWidth_bounds (v : BitVec 8) : 1000 ≤ affineWidth v ∧ affineWidth v ≤ 1996 := by
  have h1 := v.toInt_lt
  have h2 := v.le_toInt
  simp only [affineWidth]
  omega

theorem outRaw_pw (c : Config) (v : BitVec 8) : outRaw c (pw v) = affineRaw c v := by
  rw [pw_eq_affineWidth]; rfl

theorem two_bytes (w : Nat) : bytesOf 2 (BitVec.ofNat 16 w) = widthBytes w := by
  simp only [bytesOf, widthBytes, List.range, List.range.loop, List.map, byteOf]
  congr 1
  · apply BitVec.eq_of_toNat_eq; simp
  · congr 1
    apply BitVec.eq_of_toNat_eq
    simp [Nat.shiftRight_eq_div_pow]
    omega

@[simp] theorem signalRecord_noSignal : signalRecord .noSignal = [0x00, 0x00, 0x00] := rfl

@[simp] theorem signalRecord_valid (w : Nat) : signalRecord (.valid w) = 0x01 :: widthBytes w := by
  rw [signalRecord, two_bytes]

@[simp] theorem signalRecord_length (g : SignalState) : (signalRecord g).length = 3 := by
  cases g <;> simp [widthBytes]

theorem f64Record_eq (x : F64) : f64Record x = f64Bytes x := by
  simp only [f64Record, bytesOf, f64Bytes]
  apply List.map_congr_left
  intro b _
  apply BitVec.eq_of_toNat_eq
  simp [byteOf, Nat.shiftRight_eq_div_pow, Nat.pow_mul]

@[simp] theorem f64Record_length (x : F64) : (f64Record x).length = 8 := by simp [f64Record, bytesOf]

@[simp] theorem tprOk_iff (t : Int) : tprOk t = true ↔ 0 < t := by simp [tprOk]

theorem unitOf_eq_some (b : Byte) (u : SpeedUnit) :
    unitOf b = some u ↔ (b = 0x00 ∧ u = .kmh) ∨ (b = 0x01 ∧ u = .mph) := by
  unfold unitOf
  split
  · subst b; cases u <;> simp
  · split
    · subst b; cases u <;> simp
    · simp_all

theorem unitOf_eq_none (b : Byte) : unitOf b = none ↔ badUnit b = true := by
  unfold unitOf badUnit
  split
  · simp_all
  · split <;> simp_all

theorem f64Exp_eq (x : F64) : f64Exp x = x.toNat / 2 ^ 52 % 2048 := by
  simp [f64Exp, Nat.shiftRight_eq_div_pow]

theorem f64Frac_eq (x : F64) : f64Frac x = x.toNat % 2 ^ 52 := by
  simp [f64Frac]

theorem f64Sign_eq (x : F64) : f64Sign x = decide (2 ^ 63 ≤ x.toNat) := by
  rw [f64Sign, ← BitVec.msb_eq_getLsbD_last, BitVec.msb_eq_decide]

theorem f64Mag_eq_zero (x : F64) : f64Mag x = 0 ↔ f64Exp x = 0 ∧ f64Frac x = 0 := by
  unfold f64Mag
  split
  · simp_all
  · simp_all [Nat.shiftLeft_eq]

/-- The check of 42_tachometer.md R188 reads on bit patterns as a range. -/
theorem diaOk_eq (d : F64) : diaOk d = positiveFinite d := by
  have hd := d.isLt
  rw [Bool.eq_iff_iff]
  have hm := f64Mag_eq_zero d
  simp only [diaOk, f64IsFinite, positiveFinite, Bool.and_eq_true, bne_iff_ne, Bool.not_eq_true', ne_eq, hm,
    decide_eq_true_eq, f64Sign_eq, decide_eq_false_iff_not]
  rw [f64Exp_eq, f64Frac_eq]
  omega

theorem outRaw_bounds {c : Config} (h : ConfigOk c) {w : Nat} (h1 : 1000 ≤ w) (h2 : w ≤ 2000) :
    1 ≤ outRaw c w ∧ outRaw c w ≤ 2 ^ c.rawW - 1 := by
  obtain ⟨-, -, ⟨ha, hb⟩, -⟩ := configRules h
  constructor
  · exact ha.trans (Nat.div_le_div_right (Nat.mul_le_mul_right _ h1))
  · exact (Nat.div_le_div_right (Nat.mul_le_mul_right _ h2)).trans hb

end Sys2Proof.Machine
end

