-- ==== Sys2Proof/Laws/State.lean ====
section
/-! SUPPORT. One lemma per field of State and per update of it, so that no proof unfolds a record update. -/

namespace Sys2Proof.Machine

@[simp] theorem respond_cfg (st : Status) (p : List Byte) (s : State) :
    (respond st p s).cfg = s.cfg := rfl
@[simp] theorem respond_miss (st : Status) (p : List Byte) (s : State) :
    (respond st p s).miss = s.miss := rfl
@[simp] theorem respond_lastGood (st : Status) (p : List Byte) (s : State) :
    (respond st p s).lastGood = s.lastGood := rfl
@[simp] theorem respond_out (st : Status) (p : List Byte) (s : State) :
    (respond st p s).out = s.out := rfl
@[simp] theorem respond_pending (st : Status) (p : List Byte) (s : State) :
    (respond st p s).pending = s.pending := rfl
@[simp] theorem respond_host (st : Status) (p : List Byte) (s : State) :
    (respond st p s).host = s.host := rfl
@[simp] theorem respond_bridge (st : Status) (p : List Byte) (s : State) :
    (respond st p s).bridge = s.bridge := rfl
@[simp] theorem respond_bus (st : Status) (p : List Byte) (s : State) :
    (respond st p s).bus = s.bus := rfl
@[simp] theorem respond_responses (st : Status) (p : List Byte) (s : State) :
    (respond st p s).responses = s.responses ++ [statusByte st :: p] := rfl

@[simp] theorem wait_cfg (i : Instr) (t : Transaction) (s : State) :
    (wait i t s).cfg = s.cfg := rfl
@[simp] theorem wait_miss (i : Instr) (t : Transaction) (s : State) :
    (wait i t s).miss = s.miss := rfl
@[simp] theorem wait_lastGood (i : Instr) (t : Transaction) (s : State) :
    (wait i t s).lastGood = s.lastGood := rfl
@[simp] theorem wait_out (i : Instr) (t : Transaction) (s : State) :
    (wait i t s).out = s.out := rfl
@[simp] theorem wait_pending (i : Instr) (t : Transaction) (s : State) :
    (wait i t s).pending = some ⟨i, t⟩ := rfl
@[simp] theorem wait_host (i : Instr) (t : Transaction) (s : State) :
    (wait i t s).host = s.host := rfl
@[simp] theorem wait_bridge (i : Instr) (t : Transaction) (s : State) :
    (wait i t s).bridge = s.bridge := rfl
@[simp] theorem wait_bus (i : Instr) (t : Transaction) (s : State) :
    (wait i t s).bus = s.bus := rfl
@[simp] theorem wait_responses (i : Instr) (t : Transaction) (s : State) :
    (wait i t s).responses = s.responses := rfl

@[simp] theorem resume_cfg (s : State) :
    (resume s).cfg = s.cfg := rfl
@[simp] theorem resume_miss (s : State) :
    (resume s).miss = s.miss := rfl
@[simp] theorem resume_lastGood (s : State) :
    (resume s).lastGood = s.lastGood := rfl
@[simp] theorem resume_out (s : State) :
    (resume s).out = s.out := rfl
@[simp] theorem resume_pending (s : State) :
    (resume s).pending = none := rfl
@[simp] theorem resume_host (s : State) :
    (resume s).host = s.host := rfl
@[simp] theorem resume_bridge (s : State) :
    (resume s).bridge = s.bridge := rfl
@[simp] theorem resume_bus (s : State) :
    (resume s).bus = s.bus := rfl
@[simp] theorem resume_responses (s : State) :
    (resume s).responses = s.responses := rfl

@[simp] theorem answered_cfg (t : Transaction) (a : BridgeAnswer) (r : List BridgeAnswer) (s : State) :
    (answered t a r s).cfg = s.cfg := rfl
@[simp] theorem answered_miss (t : Transaction) (a : BridgeAnswer) (r : List BridgeAnswer) (s : State) :
    (answered t a r s).miss = s.miss := rfl
@[simp] theorem answered_lastGood (t : Transaction) (a : BridgeAnswer) (r : List BridgeAnswer) (s : State) :
    (answered t a r s).lastGood = s.lastGood := rfl
@[simp] theorem answered_out (t : Transaction) (a : BridgeAnswer) (r : List BridgeAnswer) (s : State) :
    (answered t a r s).out = s.out := rfl
@[simp] theorem answered_pending (t : Transaction) (a : BridgeAnswer) (r : List BridgeAnswer) (s : State) :
    (answered t a r s).pending = s.pending := rfl
@[simp] theorem answered_host (t : Transaction) (a : BridgeAnswer) (r : List BridgeAnswer) (s : State) :
    (answered t a r s).host = s.host := rfl
@[simp] theorem answered_bridge (t : Transaction) (a : BridgeAnswer) (r : List BridgeAnswer) (s : State) :
    (answered t a r s).bridge = r := rfl
@[simp] theorem answered_bus (t : Transaction) (a : BridgeAnswer) (r : List BridgeAnswer) (s : State) :
    (answered t a r s).bus = s.bus ++ [⟨t, a⟩] := rfl
@[simp] theorem answered_responses (t : Transaction) (a : BridgeAnswer) (r : List BridgeAnswer) (s : State) :
    (answered t a r s).responses = s.responses := rfl

@[simp] theorem setOut_cfg (k : Nat) (new : List OutState) (s : State) :
    (setOut k new s).cfg = s.cfg := rfl
@[simp] theorem setOut_miss (k : Nat) (new : List OutState) (s : State) :
    (setOut k new s).miss = s.miss := rfl
@[simp] theorem setOut_lastGood (k : Nat) (new : List OutState) (s : State) :
    (setOut k new s).lastGood = s.lastGood := rfl
@[simp] theorem setOut_out (k : Nat) (new : List OutState) (s : State) :
    (setOut k new s).out = overlay k new s.out := rfl
@[simp] theorem setOut_pending (k : Nat) (new : List OutState) (s : State) :
    (setOut k new s).pending = s.pending := rfl
@[simp] theorem setOut_host (k : Nat) (new : List OutState) (s : State) :
    (setOut k new s).host = s.host := rfl
@[simp] theorem setOut_bridge (k : Nat) (new : List OutState) (s : State) :
    (setOut k new s).bridge = s.bridge := rfl
@[simp] theorem setOut_bus (k : Nat) (new : List OutState) (s : State) :
    (setOut k new s).bus = s.bus := rfl
@[simp] theorem setOut_responses (k : Nat) (new : List OutState) (s : State) :
    (setOut k new s).responses = s.responses := rfl

@[simp] theorem setChannel_cfg (i : Fin nIn) (r : Sampled) (s : State) :
    (setChannel i r s).cfg = s.cfg := rfl
@[simp] theorem setChannel_miss (i : Fin nIn) (r : Sampled) (s : State) :
    (setChannel i r s).miss = s.miss.set i r.miss := rfl
@[simp] theorem setChannel_lastGood (i : Fin nIn) (r : Sampled) (s : State) :
    (setChannel i r s).lastGood = s.lastGood.set i r.lastGood := rfl
@[simp] theorem setChannel_out (i : Fin nIn) (r : Sampled) (s : State) :
    (setChannel i r s).out = s.out := rfl
@[simp] theorem setChannel_pending (i : Fin nIn) (r : Sampled) (s : State) :
    (setChannel i r s).pending = s.pending := rfl
@[simp] theorem setChannel_host (i : Fin nIn) (r : Sampled) (s : State) :
    (setChannel i r s).host = s.host := rfl
@[simp] theorem setChannel_bridge (i : Fin nIn) (r : Sampled) (s : State) :
    (setChannel i r s).bridge = s.bridge := rfl
@[simp] theorem setChannel_bus (i : Fin nIn) (r : Sampled) (s : State) :
    (setChannel i r s).bus = s.bus := rfl
@[simp] theorem setChannel_responses (i : Fin nIn) (r : Sampled) (s : State) :
    (setChannel i r s).responses = s.responses := rfl

@[simp] theorem frameTaken_cfg (r : List Frame) (s : State) :
    (frameTaken r s).cfg = s.cfg := rfl
@[simp] theorem frameTaken_miss (r : List Frame) (s : State) :
    (frameTaken r s).miss = s.miss := rfl
@[simp] theorem frameTaken_lastGood (r : List Frame) (s : State) :
    (frameTaken r s).lastGood = s.lastGood := rfl
@[simp] theorem frameTaken_out (r : List Frame) (s : State) :
    (frameTaken r s).out = s.out := rfl
@[simp] theorem frameTaken_pending (r : List Frame) (s : State) :
    (frameTaken r s).pending = s.pending := rfl
@[simp] theorem frameTaken_host (r : List Frame) (s : State) :
    (frameTaken r s).host = r := rfl
@[simp] theorem frameTaken_bridge (r : List Frame) (s : State) :
    (frameTaken r s).bridge = s.bridge := rfl
@[simp] theorem frameTaken_bus (r : List Frame) (s : State) :
    (frameTaken r s).bus = s.bus := rfl
@[simp] theorem frameTaken_responses (r : List Frame) (s : State) :
    (frameTaken r s).responses = s.responses := rfl

@[simp] theorem issue_cfg (f : Frame) (s : State) :
    (issue f s).cfg = s.cfg := rfl
@[simp] theorem issue_miss (f : Frame) (s : State) :
    (issue f s).miss = s.miss := rfl
@[simp] theorem issue_lastGood (f : Frame) (s : State) :
    (issue f s).lastGood = s.lastGood := rfl
@[simp] theorem issue_out (f : Frame) (s : State) :
    (issue f s).out = s.out := rfl
@[simp] theorem issue_pending (f : Frame) (s : State) :
    (issue f s).pending = none := rfl
@[simp] theorem issue_host (f : Frame) (s : State) :
    (issue f s).host = f :: s.host := rfl
@[simp] theorem issue_bridge (f : Frame) (s : State) :
    (issue f s).bridge = s.bridge := rfl
@[simp] theorem issue_bus (f : Frame) (s : State) :
    (issue f s).bus = s.bus := rfl
@[simp] theorem issue_responses (f : Frame) (s : State) :
    (issue f s).responses = s.responses := rfl

end Sys2Proof.Machine
end

