-- ==== Sys2Proof/Laws/Ops.lean ====
section
/-! SUPPORT. For each shared operation, what it can answer. -/

namespace Sys2Proof.Machine

/-! ## Accepting -/

theorem accepted_of_ready {s : State} (h : Ready s) (m : Result) : accepted s m = m := by
  simp [accepted, h.1, h.2]

theorem accepted_eq_next {s t : State} {m : Result} : accepted s m = .next t ↔ Ready s ∧ m = .next t := by
  unfold accepted Ready
  split <;> rename_i hc
  · cases hp : s.pending with
    | none => exact ⟨fun h => ⟨⟨hc, rfl⟩, h⟩, fun h => h.2⟩
    | some p => simp
  · simp [hc]

theorem accepted_eq_fault {s : State} {m : Result} {f : Fault} :
    accepted s m = .fault f ↔ Ready s ∧ m = .fault f := by
  unfold accepted Ready
  split <;> rename_i hc
  · cases hp : s.pending with
    | none => exact ⟨fun h => ⟨⟨hc, rfl⟩, h⟩, fun h => h.2⟩
    | some p => simp
  · simp [hc]

theorem accepted_of_illFormed {s : State} (h : ¬ ConfigOk s.cfg) (m : Result) :
    accepted s m = .refused .illFormedConfiguration := if_neg h

theorem accepted_of_pending {s : State} (h : ConfigOk s.cfg) {p : Pending} (hp : s.pending = some p) (m : Result) :
    accepted s m = .refused .commandInProgress := by
  simp [accepted, h, hp]

/-! ## Reading -/

theorem readAnswerOk_iff (c : Config) (n : Nat) (vs : List Nat) :
    readAnswerOk c n vs = true ↔ vs.length = n ∧ ∀ v ∈ vs, v < 2 ^ c.rawW := by
  simp [readAnswerOk]

theorem readBridge_unanswered {s : State} (h : s.bridge = []) (i : Instr) (a n : Nat)
    (k : List Nat → State → Result) : readBridge i a n s k = .next (wait i (.read a n) s) := by
  simp [readBridge, h]

theorem readBridge_busError {s : State} {rest : List BridgeAnswer} (h : s.bridge = .busError :: rest) (i : Instr)
    (a n : Nat) (k : List Nat → State → Result) :
    readBridge i a n s k = .next (respond .busError [] (answered (.read a n) .busError rest s)) := by
  simp [readBridge, h, raise]

theorem readBridge_values {s : State} {vs : List Nat} {rest : List BridgeAnswer} (h : s.bridge = .values vs :: rest)
    {n : Nat} (hl : vs.length = n) (hr : ∀ v ∈ vs, v < 2 ^ s.cfg.rawW) (i : Instr) (a : Nat)
    (k : List Nat → State → Result) :
    readBridge i a n s k = k vs (answered (.read a n) (.values vs) rest s) := by
  simp [readBridge, h, (readAnswerOk_iff s.cfg n vs).2 ⟨hl, hr⟩]

/-- Everything a read can answer: it waits, it fails, it goes on with the values, or the answer is none of R62's. -/
theorem readBridge_cases (i : Instr) (a n : Nat) (s : State) (k : List Nat → State → Result) :
    (s.bridge = [] ∧ readBridge i a n s k = .next (wait i (.read a n) s))
    ∨ (∃ rest, s.bridge = .busError :: rest
        ∧ readBridge i a n s k = .next (respond .busError [] (answered (.read a n) .busError rest s)))
    ∨ (∃ vs rest, s.bridge = .values vs :: rest ∧ vs.length = n ∧ (∀ v ∈ vs, v < 2 ^ s.cfg.rawW)
        ∧ readBridge i a n s k = k vs (answered (.read a n) (.values vs) rest s))
    ∨ ((∃ x rest, s.bridge = x :: rest ∧ answerFits s.cfg (.read a n) x = false)
        ∧ readBridge i a n s k = .refused .answerOutsideR62) := by
  match h : s.bridge with
  | [] => exact .inl ⟨rfl, readBridge_unanswered h i a n k⟩
  | .busError :: rest => exact .inr (.inl ⟨rest, rfl, readBridge_busError h i a n k⟩)
  | .ok :: rest => exact .inr (.inr (.inr ⟨⟨.ok, rest, rfl, rfl⟩, by simp [readBridge, h]⟩))
  | .values vs :: rest =>
    cases hv : readAnswerOk s.cfg n vs with
    | true =>
      obtain ⟨hl, hr⟩ := (readAnswerOk_iff _ _ _).1 hv
      exact .inr (.inr (.inl ⟨vs, rest, rfl, hl, hr, readBridge_values h hl hr i a k⟩))
    | false =>
      refine .inr (.inr (.inr ⟨⟨.values vs, rest, rfl, ?_⟩, by simp [readBridge, h, hv]⟩))
      simpa [answerFits, readAnswerOk] using hv

/-! ## Writing -/

@[simp] theorem overlay_length (k : Nat) (new out : List OutState) : (overlay k new out).length = out.length := by
  induction new generalizing k out with
  | nil => rfl
  | cons o rest ih => simp [overlay, ih]

/-- The entry of an overlaid list at `j`. -/
theorem overlay_getElem? (k j : Nat) (new out : List OutState) :
    (overlay k new out)[j]? = if k ≤ j ∧ j < k + new.length ∧ j < out.length then new[j - k]? else out[j]? := by
  induction new generalizing k out with
  | nil => simp only [overlay, List.length_nil]; split <;> [omega; rfl]
  | cons o rest ih =>
    rw [overlay, ih]
    simp only [List.length_set, List.length_cons]
    by_cases hj : j = k
    · subst hj
      by_cases hl : j < out.length <;> simp [hl]
    · have hkj : k ≠ j := Ne.symm hj
      rw [List.getElem?_set_ne hkj]
      by_cases h1 : k + 1 ≤ j ∧ j < k + 1 + rest.length ∧ j < out.length
      · have h2 : k ≤ j ∧ j < k + (rest.length + 1) ∧ j < out.length := by omega
        have h3 : j - k = (j - (k + 1)) + 1 := by omega
        simp only [if_pos h1, if_pos h2, h3, List.getElem?_cons_succ]
      · have h2 : ¬ (k ≤ j ∧ j < k + (rest.length + 1) ∧ j < out.length) := by omega
        simp only [if_neg h1, if_neg h2]

@[simp] theorem overlay_single (k : Nat) (o : OutState) (out : List OutState) :
    overlay k [o] out = out.set k o := rfl

/-- Records for every channel replace the whole array. -/
theorem overlay_all {new out : List OutState} (h : new.length = out.length) : overlay 0 new out = new := by
  apply List.ext_getElem?
  intro j
  rw [overlay_getElem?]
  split
  · simp
  · rw [List.getElem?_eq_none (by omega), List.getElem?_eq_none (by omega)]

theorem writeOutputs_unanswered {s : State} (h : s.bridge = []) (i : Instr) (k : Nat) (raws : List Nat)
    (new : List OutState) :
    writeOutputs i k raws new s = .next (wait i (.write (s.cfg.addrOutBase + k) raws) s) := by
  simp [writeOutputs, h, channelAddr, groupBase]

theorem writeOutputs_busError {s : State} {rest : List BridgeAnswer} (h : s.bridge = .busError :: rest) (i : Instr)
    (k : Nat) (raws : List Nat) (new : List OutState) :
    writeOutputs i k raws new s = .next (respond .busError [] (setOut k (new.map fun _ => .unknown)
      (answered (.write (s.cfg.addrOutBase + k) raws) .busError rest s))) := by
  simp [writeOutputs, h, channelAddr, groupBase, raise]

theorem writeOutputs_ok {s : State} {rest : List BridgeAnswer} (h : s.bridge = .ok :: rest) (i : Instr)
    (k : Nat) (raws : List Nat) (new : List OutState) :
    writeOutputs i k raws new s = .next (respond .ok [] (setOut k new
      (answered (.write (s.cfg.addrOutBase + k) raws) .ok rest s))) := by
  simp [writeOutputs, h, channelAddr, groupBase]

/-- Everything a write can answer: it waits, it fails and forgets, it is accepted, or the answer is none of R62's. -/
theorem writeOutputs_cases (i : Instr) (k : Nat) (raws : List Nat) (new : List OutState) (s : State) :
    (s.bridge = [] ∧ writeOutputs i k raws new s = .next (wait i (.write (s.cfg.addrOutBase + k) raws) s))
    ∨ (∃ rest, s.bridge = .busError :: rest
        ∧ writeOutputs i k raws new s = .next (respond .busError [] (setOut k (new.map fun _ => .unknown)
          (answered (.write (s.cfg.addrOutBase + k) raws) .busError rest s))))
    ∨ (∃ rest, s.bridge = .ok :: rest
        ∧ writeOutputs i k raws new s = .next (respond .ok [] (setOut k new
          (answered (.write (s.cfg.addrOutBase + k) raws) .ok rest s))))
    ∨ ((∃ x rest, s.bridge = x :: rest ∧ answerFits s.cfg (.write (s.cfg.addrOutBase + k) raws) x = false)
        ∧ writeOutputs i k raws new s = .refused .answerOutsideR62) := by
  match h : s.bridge with
  | [] => exact .inl ⟨rfl, writeOutputs_unanswered h i k raws new⟩
  | .busError :: rest => exact .inr (.inl ⟨rest, rfl, writeOutputs_busError h i k raws new⟩)
  | .ok :: rest => exact .inr (.inr (.inl ⟨rest, rfl, writeOutputs_ok h i k raws new⟩))
  | .values vs :: rest => exact .inr (.inr (.inr ⟨⟨.values vs, rest, rfl, rfl⟩, by simp [writeOutputs, h]⟩))

/-! ## Decoding samples -/

/-- A sample is decoded exactly as 40_pwm_input.md R124 and R125 say. -/
theorem decodeSample_eq_ok (c : Config) (m : Nat) (g : Option Nat) (raw : Nat) (r : Sampled) :
    decodeSample c m g raw = .ok r ↔ LaneSpec c m g raw r.miss r.lastGood r.signal := by
  obtain ⟨rm, rg, rs⟩ := r
  simp only [decodeSample, LaneSpec, plausible_iff, clampWidth_eq, ticksToUs]
  by_cases hp : c.plausMin ≤ raw * c.inUsNum / c.inUsDen ∧ raw * c.inUsNum / c.inUsDen ≤ c.plausMax
  · simp only [if_pos hp, Except.ok.injEq, Sampled.mk.injEq]
    constructor
    · rintro ⟨rfl, rfl, rfl⟩; exact ⟨rfl, rfl, rfl⟩
    · rintro ⟨rfl, rfl, rfl⟩; exact ⟨rfl, rfl, rfl⟩
  · simp only [if_neg hp]
    by_cases hl : c.losTimeout < min (m + 1) (c.losTimeout + 1)
    · simp only [if_pos hl, Except.ok.injEq, Sampled.mk.injEq]
      constructor
      · rintro ⟨rfl, rfl, rfl⟩; rw [if_pos hl]; exact ⟨rfl, rfl, rfl⟩
      · rintro ⟨rfl, rfl, h⟩; rw [if_pos hl] at h; exact ⟨rfl, rfl, h.symm⟩
    · simp only [if_neg hl]
      cases g with
      | none =>
        simp only [reduceCtorEq, false_iff]
        rintro ⟨rfl, rfl, h⟩
        rw [if_neg hl] at h
        simp at h
      | some w0 =>
        simp only [Except.ok.injEq, Sampled.mk.injEq]
        constructor
        · rintro ⟨rfl, rfl, rfl⟩
          rw [if_neg hl]
          exact ⟨rfl, rfl, w0, rfl, rfl⟩
        · rintro ⟨rfl, rfl, h⟩
          rw [if_neg hl] at h
          obtain ⟨w, hw, rfl⟩ := h
          simp_all

/-- The one way a sample faults (93_implementation_defined.md U12). -/
theorem decodeSample_eq_error (c : Config) (m : Nat) (g : Option Nat) (raw : Nat) (f : Fault) :
    decodeSample c m g raw = .error f ↔
      ¬ (c.plausMin ≤ raw * c.inUsNum / c.inUsDen ∧ raw * c.inUsNum / c.inUsDen ≤ c.plausMax)
      ∧ m < c.losTimeout ∧ g = none := by
  cases f
  simp only [decodeSample, plausible_iff, ticksToUs]
  by_cases hp : c.plausMin ≤ raw * c.inUsNum / c.inUsDen ∧ raw * c.inUsNum / c.inUsDen ≤ c.plausMax
  · simp [hp]
  · simp only [if_neg hp]
    by_cases hl : c.losTimeout < min (m + 1) (c.losTimeout + 1)
    · simp only [if_pos hl, reduceCtorEq, false_iff]
      omega
    · simp only [if_neg hl]
      have hm : m < c.losTimeout := by omega
      cases g <;> simp [hp, hm]

/-- Decoding samples writes only the decoder's arrays, and gives one SignalState a sample. -/
theorem decodeChannels_frame {l : List (Fin nIn × Nat)} {s s' : State} {sigs : List SignalState}
    (h : decodeChannels l s = .ok (sigs, s')) :
    s' = { s with miss := s'.miss, lastGood := s'.lastGood } ∧ sigs.length = l.length := by
  induction l generalizing s s' sigs with
  | nil => simp only [decodeChannels, Except.ok.injEq, Prod.mk.injEq] at h; obtain ⟨rfl, rfl⟩ := h; exact ⟨rfl, rfl⟩
  | cons x rest ih =>
    obtain ⟨i, raw⟩ := x
    rw [decodeChannels] at h
    split at h
    · cases h
    · rename_i r _
      split at h
      · cases h
      · rename_i sigs₁ s₁ hr
        simp only [Except.ok.injEq, Prod.mk.injEq] at h
        obtain ⟨rfl, rfl⟩ := h
        obtain ⟨h1, h2⟩ := ih hr
        exact ⟨by rw [h1]; rfl, by simp [h2]⟩

/-- One decoded sample. -/
theorem decodeChannels_single {i : Fin nIn} {raw : Nat} {s : State} {r : Sampled}
    (h : decodeSample s.cfg s.miss[i.val] s.lastGood[i.val] raw = .ok r) :
    decodeChannels [(i, raw)] s = .ok ([r.signal], setChannel i r s) := by
  simp [decodeChannels, h]

theorem respondDecoded_ok {l : List (Fin nIn × Nat)} {s s' : State} {sigs : List SignalState}
    (h : decodeChannels l s = .ok (sigs, s')) :
    respondDecoded l s = .next (respond .ok (sigs.flatMap signalRecord) s') := by
  simp [respondDecoded, h]

theorem respondDecoded_eq_next {l : List (Fin nIn × Nat)} {s t : State} (h : respondDecoded l s = .next t) :
    ∃ sigs s', decodeChannels l s = .ok (sigs, s') ∧ t = respond .ok (sigs.flatMap signalRecord) s' := by
  unfold respondDecoded at h
  split at h
  · cases h
  · rename_i sigs s' hd
    exact ⟨sigs, s', hd, by cases h; rfl⟩

/-! ## Fetching -/

/-- Everything the block can have to do next. -/
theorem fetch_cases (s : State) :
    (∃ p, s.pending = some p ∧ fetch s = .command p.cmd (resume s))
    ∨ (s.pending = none ∧ s.host = [] ∧ fetch s = .idle)
    ∨ (s.pending = none ∧ ∃ f rest, s.host = f :: rest ∧
        ((¬ ConfigOk s.cfg ∧ fetch s = .noMeaning .illFormedConfiguration)
        ∨ (ConfigOk s.cfg ∧ (∃ e, decode s.cfg.nOut f = .error e)
            ∧ fetch s = .illegal (respond .illegal [] (frameTaken rest s)))
        ∨ (ConfigOk s.cfg ∧ ∃ i, decode s.cfg.nOut f = .ok i ∧ fetch s = .command i (frameTaken rest s)))) := by
  cases hp : s.pending with
  | some p => exact .inl ⟨p, rfl, by simp [fetch, hp]⟩
  | none =>
    cases hh : s.host with
    | nil => exact .inr (.inl ⟨rfl, rfl, by simp [fetch, hp, hh]⟩)
    | cons f rest =>
      refine .inr (.inr ⟨rfl, f, rest, rfl, ?_⟩)
      by_cases hc : ConfigOk s.cfg
      · cases hd : decode s.cfg.nOut f with
        | error e =>
          refine .inr (.inl ⟨hc, ⟨e, rfl⟩, ?_⟩)
          simp only [fetch, hp, hh, if_pos hc, hd]
        | ok i =>
          refine .inr (.inr ⟨hc, i, rfl, ?_⟩)
          simp only [fetch, hp, hh, if_pos hc, hd]
      · refine .inl ⟨hc, ?_⟩
        simp only [fetch, hp, hh, if_neg hc]

/-- What a step that answers a next state did: it waited for the host, it answered a frame that spells no command, or it ran
a command. -/
theorem step_eq_next {s t : State} (h : step s = .next t) :
    t = s
    ∨ (ConfigOk s.cfg ∧ s.pending = none ∧ ∃ f rest, s.host = f :: rest
        ∧ t = respond .illegal [] (frameTaken rest s))
    ∨ (∃ p, s.pending = some p ∧ exec p.cmd (resume s) = .next t)
    ∨ (∃ f rest i, s.pending = none ∧ s.host = f :: rest ∧ decode s.cfg.nOut f = .ok i
        ∧ exec i (frameTaken rest s) = .next t) := by
  unfold step at h
  rcases fetch_cases s with ⟨p, hp, hf⟩ | ⟨-, -, hf⟩ | ⟨hp, f, rest, hh, ⟨-, hf⟩ | ⟨hc, -, hf⟩ | ⟨-, i, hi, hf⟩⟩
  · rw [hf] at h; exact .inr (.inr (.inl ⟨p, hp, h⟩))
  · rw [hf] at h; cases h; exact .inl rfl
  · rw [hf] at h; cases h
  · rw [hf] at h; cases h; exact .inr (.inl ⟨hc, hp, f, rest, hh, rfl⟩)
  · rw [hf] at h; exact .inr (.inr (.inr ⟨f, rest, i, hp, hh, hi, h⟩))

end Sys2Proof.Machine
end

