-- ==== Sys2Proof/Laws/Exec.lean ====
section
/-! SUPPORT. The normal form of a command that can run: it is answered at once, or it is one read or one write of the
Bridge with the transaction of the table of 20_memory.md R76, followed by what it does with the values. -/

namespace Sys2Proof.Machine

/-! ## What a command does with the values of its read -/

/-- The input channel a byte names; used for bytes below `nIn` only. -/
def inChannelOf (ch : Byte) : Fin nIn := Fin.ofNat nIn ch.toNat

/-- The speed unit a byte names; used for the two unit bytes only. -/
def unitNamed (b : Byte) : SpeedUnit := if b = 0x00 then .kmh else .mph

/-- The ticks per revolution configured for the channel a byte names; used for bytes below `nTach` only. -/
def tprNamed (c : Config) (ch : Byte) : Int := c.tprCfg.toList.getD ch.toNat 1

/-- What a reading command does once its read is answered. -/
def afterRead (i : Instr) (vs : List Nat) (u : State) : Result :=
  match i with
  | .readPwm ch => respondDecoded ([inChannelOf ch].zip vs) u
  | .readPwms => respondDecoded (inChannels.zip vs) u
  | .readTach ch =>
    .next (respond .ok (vs.flatMap fun p => f64Record (rpm64 u.cfg.wTach p (tprNamed u.cfg ch))) u)
  | .readTachs =>
    .next (respond .ok ((vs.zip u.cfg.tprCfg.toList).flatMap fun x => f64Record (rpm64 u.cfg.wTach x.1 x.2)) u)
  | .readSpeed _ unit tpr dia =>
    .next (respond .ok (vs.flatMap fun p => f64Record (speed64 u.cfg.wTach p tpr.toInt dia (unitNamed unit))) u)
  | .readSpeeds unit tpr dia =>
    .next (respond .ok (vs.flatMap fun p => f64Record (speed64 u.cfg.wTach p tpr.toInt dia (unitNamed unit))) u)
  | .setPwm _ _ => .next u
  | .setPwms _ => .next u
  | .disableOutputs => .next u

/-- The first output channel a writing command covers. -/
def firstWritten : Instr → Nat
  | .setPwm ch _ => ch.toNat
  | .setPwms _ => 0
  | .disableOutputs => 0
  | .readPwm _ => 0
  | .readPwms => 0
  | .readTach _ => 0
  | .readTachs => 0
  | .readSpeed _ _ _ _ => 0
  | .readSpeeds _ _ _ => 0

/-- The records a writing command leaves, one for each channel it covers. -/
def recordsWritten (c : Config) : Instr → List OutState
  | .setPwm _ v => [.driving (pw v)]
  | .setPwms v => v.map fun x => .driving (pw x)
  | .disableOutputs => List.replicate c.nOut .disabled
  | .readPwm _ => []
  | .readPwms => []
  | .readTach _ => []
  | .readTachs => []
  | .readSpeed _ _ _ _ => []
  | .readSpeeds _ _ _ => []

/-! ## The operand checks of the meanings are those of the table of 60_exceptions.md R222 -/

theorem speedOperands_valid {unit : Byte} {tpr : BitVec 32} {dia : F64}
    (h : (badUnit unit || decide (tpr.toInt ≤ 0) || !positiveFinite dia) = false) :
    speedOperands unit tpr dia = some (unitNamed unit) := by
  simp only [Bool.or_eq_false_iff, decide_eq_false_iff_not, not_le, Bool.not_eq_false'] at h
  obtain ⟨⟨hu, ht⟩, hd⟩ := h
  rw [speedOperands, diaOk_eq, hd]
  have h2 : unit = 0x00 ∨ unit = 0x01 := by
    have h3 : ¬unit = 0x00 → unit = 0x01 := by simpa [badUnit] using hu
    tauto
  rcases h2 with rfl | rfl <;> simp [tprOk, ht, unitOf, unitNamed]

theorem speedOperands_invalid {unit : Byte} {tpr : BitVec 32} {dia : F64}
    (h : (badUnit unit || decide (tpr.toInt ≤ 0) || !positiveFinite dia) = true) :
    speedOperands unit tpr dia = none := by
  rw [speedOperands, diaOk_eq]
  by_cases hc : (tprOk tpr.toInt && positiveFinite dia) = true
  · rw [if_pos hc, unitOf_eq_none]
    simp only [Bool.and_eq_true, tprOk_iff] at hc
    simpa [hc.2, not_le.2 hc.1] using h
  · exact if_neg hc

theorem tprCfg_toList (c : Config) : c.tprCfg.toList = [c.tprCfg[0], c.tprCfg[1]] := by
  apply List.ext_getElem
  · simp
  · intro n h1 h2
    have : n = 0 ∨ n = 1 := by simp at h2; omega
    rcases this with rfl | rfl <;> simp

theorem tprNamed_eq (c : Config) (ch : Byte) (h : ch.toNat < nTach) : tprNamed c ch = c.tprCfg[ch.toNat] := by
  simp [tprNamed, List.getD_eq_getElem?_getD, h]

/-! ## The normal form -/

theorem transactionOf_eq_some {c : Config} {i : Instr} {x : Transaction} :
    transactionOf c i = some x ↔
      i.wellFormed c.nOut = true ∧ inputError c i = false ∧ tableTransaction c i = x := by
  simp [transactionOf, and_assoc]

theorem transactionOf_eq_none {c : Config} {i : Instr} :
    transactionOf c i = none ↔ i.wellFormed c.nOut = false ∨ inputError c i = true := by
  unfold transactionOf
  cases i.wellFormed c.nOut <;> cases inputError c i <;> simp

/-- A command with an invalid operand ends with INPUT_ERROR at once. -/
theorem exec_of_inputError {i : Instr} {s : State} (hs : Ready s) (h : inputError s.cfg i = true) :
    exec i s = .next (respond .inputError [] s) := by
  cases i <;> simp only [inputError, Bool.false_eq_true] at h
  all_goals simp only [exec, execReadPwm, execSetPwm, execReadTach, execReadTachs, execReadSpeed, execReadSpeeds,
    accepted_of_ready hs]
  case readPwm ch =>
    have : ¬ ch.toNat < nIn := by simpa using h
    simp [this, raise]
  case setPwm ch v =>
    have : ¬ ch.toNat < s.cfg.nOut := by simpa using h
    simp [this, raise]
  case readTach ch =>
    by_cases hc : ch.toNat < nTach
    · have h2 : ¬ 0 < s.cfg.tprCfg[ch.toNat] := by
        rw [← tprNamed_eq s.cfg ch hc]
        have h3 : ¬ 2 ≤ ch.toNat := by simpa using hc
        simpa [h3, tprNamed] using h
      simp [hc, h2, raise]
    · simp [hc, raise]
  case readTachs =>
    have h2 : ¬ ((0 : Int) < s.cfg.tprCfg[0] ∧ (0 : Int) < s.cfg.tprCfg[1]) := by
      simp only [Bool.or_eq_true, decide_eq_true_eq] at h; omega
    simp only [tprCfg_toList, List.all_cons, List.all_nil, Bool.and_true, Bool.and_eq_true, tprOk_iff, if_neg h2, raise]
  case readSpeed ch unit tpr dia =>
    by_cases hc : ch.toNat < nTach
    · have h3 : ¬ 2 ≤ ch.toNat := by simpa using hc
      have h2 : (badUnit unit || decide (tpr.toInt ≤ 0) || !positiveFinite dia) = true := by
        simpa [h3] using h
      simp [hc, speedOperands_invalid h2, raise]
    · simp [hc, raise]
  case readSpeeds unit tpr dia =>
    simp [speedOperands_invalid h, raise]

/-- A SET_PWMS term that no frame spells is ILLEGAL (log 14). -/
theorem exec_of_illFormed {i : Instr} {s : State} (hs : Ready s) (h : i.wellFormed s.cfg.nOut = false) :
    exec i s = .next (respond .illegal [] s) := by
  cases i <;> simp only [Instr.wellFormed, Bool.true_eq_false] at h
  case setPwms v =>
    have : ¬ v.length = s.cfg.nOut := by simpa using h
    simp [exec, execSetPwms, accepted_of_ready hs, this, raise]

/-- A command without a transaction is answered at once, and nothing else happens. -/
theorem exec_of_no_transaction {i : Instr} {s : State} (hs : Ready s) (h : transactionOf s.cfg i = none) :
    ∃ st, (st = .inputError ∨ st = .illegal) ∧ exec i s = .next (respond st [] s) := by
  rcases transactionOf_eq_none.1 h with h | h
  · exact ⟨_, .inr rfl, exec_of_illFormed hs h⟩
  · exact ⟨_, .inl rfl, exec_of_inputError hs h⟩

/-- A reading command is its tabled read, then what it does with the values. -/
theorem exec_of_read {i : Instr} {s : State} (hs : Ready s) {a n : Nat}
    (h : transactionOf s.cfg i = some (.read a n)) :
    exec i s = readBridge i a n s (afterRead i) := by
  obtain ⟨hw, he, ht⟩ := transactionOf_eq_some.1 h
  clear h
  cases i <;> simp only [tableTransaction, Transaction.read.injEq, reduceCtorEq] at ht <;> obtain ⟨rfl, rfl⟩ := ht
    <;> simp only [inputError] at he
    <;> simp only [exec, execReadPwm, execReadPwms, execReadTach, execReadTachs, execReadSpeed, execReadSpeeds,
      accepted_of_ready hs, channelAddr, groupBase, Nat.add_zero]
  case readPwm ch =>
    have hc : ch.toNat < nIn := by simpa using he
    have hi : inChannelOf ch = ⟨ch.toNat, hc⟩ := Fin.ext (Nat.mod_eq_of_lt hc)
    simp only [hc, dite_true]
    congr 1
    funext vs u
    simp [afterRead, hi]
  case readPwms => rfl
  case readTach ch =>
    have hc : ch.toNat < nTach := by
      by_contra hn
      have : 2 ≤ ch.toNat := not_lt.1 hn
      simp [this] at he
    have hp : 0 < s.cfg.tprCfg[ch.toNat] := by
      rw [← tprNamed_eq s.cfg ch hc]
      simp only [Bool.or_eq_false_iff, decide_eq_false_iff_not, not_le] at he
      exact he.2
    simp only [hc, dite_true, tprOk_iff, hp, if_true]
    match hb : s.bridge with
    | [] => simp [readBridge, hb]
    | .busError :: r => simp [readBridge, hb]
    | .ok :: r => simp [readBridge, hb]
    | .values vs :: r => simp [readBridge, hb, afterRead, tprNamed_eq s.cfg ch hc]
  case readTachs =>
    have h2 : (0 : Int) < s.cfg.tprCfg[0] ∧ (0 : Int) < s.cfg.tprCfg[1] := by
      simp only [Bool.or_eq_false_iff, decide_eq_false_iff_not, not_le] at he; exact he
    simp only [tprCfg_toList, List.all_cons, List.all_nil, Bool.and_true, Bool.and_eq_true, tprOk_iff, if_pos h2]
    match hb : s.bridge with
    | [] => simp [readBridge, hb]
    | .busError :: r => simp [readBridge, hb]
    | .ok :: r => simp [readBridge, hb]
    | .values vs :: r => simp [readBridge, hb, afterRead, tprCfg_toList]
  case readSpeed ch unit tpr dia =>
    have hc : ch.toNat < nTach := by
      by_contra hn
      have : 2 ≤ ch.toNat := not_lt.1 hn
      simp [this] at he
    have h3 : ¬ 2 ≤ ch.toNat := by simpa using hc
    have h2 : (badUnit unit || decide (tpr.toInt ≤ 0) || !positiveFinite dia) = false := by
      simpa [h3] using he
    simp only [hc, if_true, speedOperands_valid h2]
    match hb : s.bridge with
    | [] => simp [readBridge, hb]
    | .busError :: r => simp [readBridge, hb]
    | .ok :: r => simp [readBridge, hb]
    | .values vs :: r => simp [readBridge, hb, afterRead]
  case readSpeeds unit tpr dia =>
    simp only [speedOperands_valid he]
    match hb : s.bridge with
    | [] => simp [readBridge, hb]
    | .busError :: r => simp [readBridge, hb]
    | .ok :: r => simp [readBridge, hb]
    | .values vs :: r => simp [readBridge, hb, afterRead]

/-- A writing command is its tabled write, with its own records. -/
theorem exec_of_write {i : Instr} {s : State} (hs : Ready s) {a : Nat} {raws : List Nat}
    (h : transactionOf s.cfg i = some (.write a raws)) :
    exec i s = writeOutputs i (firstWritten i) raws (recordsWritten s.cfg i) s := by
  obtain ⟨hw, he, ht⟩ := transactionOf_eq_some.1 h
  clear h
  cases i <;> simp only [tableTransaction, Transaction.write.injEq, reduceCtorEq] at ht <;> obtain ⟨rfl, rfl⟩ := ht
  case setPwm ch v =>
    have hc : ch.toNat < s.cfg.nOut := by simpa [inputError] using he
    simp [exec, execSetPwm, accepted_of_ready hs, hc, outRaw_pw, firstWritten, recordsWritten]
  case setPwms v =>
    have hl : v.length = s.cfg.nOut := by simpa [Instr.wellFormed] using hw
    have hm : (v.map fun x => outRaw s.cfg (pw x)) = v.map (affineRaw s.cfg) :=
      List.map_congr_left fun x _ => outRaw_pw s.cfg x
    simp only [exec, execSetPwms, accepted_of_ready hs, hl, if_true, hm, firstWritten, recordsWritten]
  case disableOutputs =>
    simp [exec, execDisableOutputs, accepted_of_ready hs, firstWritten, recordsWritten]

/-- Where a write lands, and that it writes each channel the raw value its record stands for. -/
theorem recordsWritten_spec {i : Instr} {c : Config} {a : Nat} {raws : List Nat}
    (h : transactionOf c i = some (.write a raws)) :
    a = c.addrOutBase + firstWritten i
    ∧ firstWritten i + raws.length ≤ c.nOut
    ∧ (recordsWritten c i).map (recordedReg c) = raws.map FarReg.holds := by
  obtain ⟨hw, he, ht⟩ := transactionOf_eq_some.1 h
  clear h
  cases i <;> simp only [tableTransaction, Transaction.write.injEq, reduceCtorEq] at ht <;> obtain ⟨rfl, rfl⟩ := ht
  case setPwm ch v =>
    have hc : ch.toNat < c.nOut := by simpa [inputError] using he
    exact ⟨rfl, hc, by simp [recordsWritten, recordedReg, outRaw_pw]⟩
  case setPwms v =>
    have hl : v.length = c.nOut := by simpa [Instr.wellFormed] using hw
    exact ⟨rfl, by simp [firstWritten, hl], by simp [recordsWritten, recordedReg, outRaw_pw]⟩
  case disableOutputs =>
    exact ⟨rfl, by simp [firstWritten], by simp [recordsWritten, recordedReg]⟩

theorem recordsWritten_length {i : Instr} {c : Config} {a : Nat} {raws : List Nat}
    (h : transactionOf c i = some (.write a raws)) : (recordsWritten c i).length = raws.length := by
  simpa using congrArg List.length (recordsWritten_spec h).2.2

/-- Everything a command that answers a next state did: it was answered at once, it waits, its transaction failed, or it was
answered. -/
theorem exec_eq_next {i : Instr} {s t : State} (h : exec i s = .next t) :
    Ready s ∧
    ((transactionOf s.cfg i = none ∧ ∃ st, (st = .inputError ∨ st = .illegal) ∧ t = respond st [] s)
    ∨ (∃ x, transactionOf s.cfg i = some x ∧ s.bridge = [] ∧ t = wait i x s)
    ∨ (∃ a n rest, transactionOf s.cfg i = some (.read a n) ∧ s.bridge = .busError :: rest
        ∧ t = respond .busError [] (answered (.read a n) .busError rest s))
    ∨ (∃ a n vs rest, transactionOf s.cfg i = some (.read a n) ∧ s.bridge = .values vs :: rest ∧ vs.length = n
        ∧ (∀ v ∈ vs, v < 2 ^ s.cfg.rawW)
        ∧ afterRead i vs (answered (.read a n) (.values vs) rest s) = .next t)
    ∨ (∃ a raws rest, transactionOf s.cfg i = some (.write a raws) ∧ s.bridge = .busError :: rest
        ∧ t = respond .busError [] (setOut (firstWritten i) ((recordsWritten s.cfg i).map fun _ => .unknown)
            (answered (.write a raws) .busError rest s)))
    ∨ (∃ a raws rest, transactionOf s.cfg i = some (.write a raws) ∧ s.bridge = .ok :: rest
        ∧ t = respond .ok [] (setOut (firstWritten i) (recordsWritten s.cfg i)
            (answered (.write a raws) .ok rest s)))) := by
  have hs : Ready s := by cases i <;> exact (accepted_eq_next.1 h).1
  refine ⟨hs, ?_⟩
  cases hx : transactionOf s.cfg i with
  | none =>
    obtain ⟨st, hst, he⟩ := exec_of_no_transaction hs hx
    rw [he] at h; cases h
    exact .inl ⟨rfl, st, hst, rfl⟩
  | some x =>
    cases x with
    | read a n =>
      rw [exec_of_read hs hx] at h
      rcases readBridge_cases i a n s (afterRead i) with
        ⟨hb, hr⟩ | ⟨rest, hb, hr⟩ | ⟨vs, rest, hb, hl, hv, hr⟩ | ⟨-, hr⟩ <;> rw [hr] at h
      · cases h; exact .inr (.inl ⟨_, rfl, hb, rfl⟩)
      · cases h; exact .inr (.inr (.inl ⟨a, n, rest, rfl, hb, rfl⟩))
      · exact .inr (.inr (.inr (.inl ⟨a, n, vs, rest, rfl, hb, hl, hv, h⟩)))
      · cases h
    | write a raws =>
      rw [exec_of_write hs hx] at h
      have ha := (recordsWritten_spec hx).1
      rcases writeOutputs_cases i (firstWritten i) raws (recordsWritten s.cfg i) s with
        ⟨hb, hr⟩ | ⟨rest, hb, hr⟩ | ⟨rest, hb, hr⟩ | ⟨-, hr⟩ <;> rw [hr] at h <;> try rw [← ha] at h
      · cases h; exact .inr (.inl ⟨_, rfl, hb, rfl⟩)
      · cases h; exact .inr (.inr (.inr (.inr (.inl ⟨a, raws, rest, rfl, hb, rfl⟩))))
      · cases h; exact .inr (.inr (.inr (.inr (.inr ⟨a, raws, rest, rfl, hb, rfl⟩))))
      · cases h

/-- A reading command's continuation answers OK with a payload of the command's length and writes only the decoder's
arrays. -/
theorem afterRead_eq_next {i : Instr} {vs : List Nat} {u t : State} {a n : Nat}
    (hx : transactionOf u.cfg i = some (.read a n)) (hl : vs.length = n) (h : afterRead i vs u = .next t) :
    ∃ payload : List Byte, payload.length = okPayloadLength i
      ∧ t = { u with miss := t.miss, lastGood := t.lastGood, responses := u.responses ++ [0x00 :: payload] } := by
  obtain ⟨hw, he, ht⟩ := transactionOf_eq_some.1 hx
  have hpay : ∀ sigs : List SignalState, (sigs.flatMap signalRecord).length = 3 * sigs.length := by
    intro sigs; induction sigs with
    | nil => rfl
    | cons g gs ih => simp [ih]; omega
  have hdec : ∀ l, respondDecoded l u = .next t → ∃ payload : List Byte, payload.length = 3 * l.length
      ∧ t = { u with miss := t.miss, lastGood := t.lastGood, responses := u.responses ++ [0x00 :: payload] } := by
    intro l hd
    obtain ⟨sigs, s', hd', rfl⟩ := respondDecoded_eq_next hd
    obtain ⟨h1, h2⟩ := decodeChannels_frame hd'
    refine ⟨_, (hpay sigs).trans (by rw [h2]), ?_⟩
    rw [h1]; rfl
  cases i <;> simp only [tableTransaction, Transaction.read.injEq, reduceCtorEq] at ht <;> obtain ⟨rfl, rfl⟩ := ht
    <;> simp only [afterRead, Host.Outcome.next.injEq] at h
  case readPwm ch =>
    obtain ⟨p, h1, h2⟩ := hdec _ h
    exact ⟨p, by simp [h1, hl, okPayloadLength], h2⟩
  case readPwms =>
    obtain ⟨p, h1, h2⟩ := hdec _ h
    exact ⟨p, by simp [h1, hl, inChannels, okPayloadLength], h2⟩
  all_goals subst h; refine ⟨_, ?_, rfl⟩
  all_goals simp [okPayloadLength, hl, List.length_flatMap]

end Sys2Proof.Machine
end

