-- ==== Sys2Proof/Laws/FarSide.lean ====
section
/-! SUPPORT. What one more answered transaction says of a register behind the Bridge. -/

namespace Sys2Proof.Machine

@[simp] theorem regAfter_nil (r : Nat) : regAfter [] r = .unknown := rfl

theorem regAfter_append (bus : List BusEvent) (e : BusEvent) (r : Nat) :
    regAfter (bus ++ [e]) r = regStep r (regAfter bus r) e := by
  simp [regAfter]

@[simp] theorem regStep_read (r a n : Nat) (k : FarReg) (x : BridgeAnswer) : regStep r k ⟨.read a n, x⟩ = k := rfl

/-- A write says nothing new of a register that it does not cover. -/
theorem regStep_write_outside {r a : Nat} {vs : List Nat} (h : ¬ (a ≤ r ∧ r < a + vs.length)) (k : FarReg)
    (x : BridgeAnswer) : regStep r k ⟨.write a vs, x⟩ = k := if_neg h

/-- An accepted write fixes the registers that it covers (20_memory.md R66). -/
theorem regStep_write_ok {r a : Nat} {vs : List Nat} (h : a ≤ r ∧ r < a + vs.length) (k : FarReg) :
    regStep r k ⟨.write a vs, .ok⟩ = .holds (vs.getD (r - a) 0) := (if_pos h).trans (if_pos rfl)

/-- A failed write leaves nothing known of the registers that it covers (20_memory.md R67). -/
theorem regStep_write_busError {r a : Nat} {vs : List Nat} (h : a ≤ r ∧ r < a + vs.length) (k : FarReg) :
    regStep r k ⟨.write a vs, .busError⟩ = .unknown := (if_pos h).trans (if_neg (by simp))

end Sys2Proof.Machine
end

