-- ==== Sys2Proof/Laws/PerInstr.lean ====
section
/-! SUPPORT. Statements made for every command, one lemma per constructor of `Instr`. -/

namespace Sys2Proof.Laws.EncodedLength

/-- The opcode of the row of 30_encoding.md R100 that a command belongs to. -/
def opcodeOfInstr : Instr → Opcode
  | .readPwm _ => .readPwm
  | .readPwms => .readPwms
  | .setPwm _ _ => .setPwm
  | .setPwms _ => .setPwms
  | .disableOutputs => .disableOutputs
  | .readTach _ => .readTach
  | .readTachs => .readTachs
  | .readSpeed _ _ _ _ => .readSpeed
  | .readSpeeds _ _ _ => .readSpeeds

/-- The frame that spells a command starts with the byte of its row (30_encoding.md R100) and has the length that this
opcode fixes (30_encoding.md R99). -/
def Statement (i : Instr) : Prop :=
  ∀ nOut : Nat, i.wellFormed nOut = true →
    (encode i).head? = some (opcodeByte (opcodeOfInstr i))
    ∧ (encode i).length = opcodeLength nOut (opcodeOfInstr i)

theorem readPwm (ch : Byte) : Statement (.readPwm ch) := fun _ _ => ⟨rfl, rfl⟩

theorem readPwms : Statement .readPwms := fun _ _ => ⟨rfl, rfl⟩

theorem setPwm (ch : Byte) (v : BitVec 8) : Statement (.setPwm ch v) := fun _ _ => ⟨rfl, rfl⟩

theorem setPwms (v : List (BitVec 8)) : Statement (.setPwms v) := by
  intro nOut h
  refine ⟨rfl, ?_⟩
  simp only [Instr.wellFormed, beq_iff_eq] at h
  simp [encode, opcodeLength, opcodeOfInstr, h, Nat.add_comm]

theorem disableOutputs : Statement .disableOutputs := fun _ _ => ⟨rfl, rfl⟩

theorem readTach (ch : Byte) : Statement (.readTach ch) := fun _ _ => ⟨rfl, rfl⟩

theorem readTachs : Statement .readTachs := fun _ _ => ⟨rfl, rfl⟩

theorem readSpeed (ch unit : Byte) (tpr : BitVec 32) (dia : F64) : Statement (.readSpeed ch unit tpr dia) :=
  fun _ _ => ⟨rfl, rfl⟩

theorem readSpeeds (unit : Byte) (tpr : BitVec 32) (dia : F64) : Statement (.readSpeeds unit tpr dia) :=
  fun _ _ => ⟨rfl, rfl⟩

end Sys2Proof.Laws.EncodedLength
end

