-- ==== Sys2Proof/Laws/Run.lean ====
section
/-! SUPPORT. Runs of several steps: one step at a time, two runs in a row, and what every step keeps. -/

namespace Sys2Proof.Machine

/-- `n` steps of the machine. -/
abbrev runSteps (n : Nat) (s : State) : Result := Host.Core.run Sys2Proof.core n s

theorem runSteps_zero (s : State) : runSteps 0 s = .next s := rfl

/-- A run of at least one step is its first step, then the rest. -/
theorem runSteps_succ_eq (n : Nat) (s : State) :
    runSteps (n + 1) s = match step s with
      | .next t => runSteps n t
      | .fault f => .fault f
      | .refused r => .refused r := by
  have h := Host.Core.run.eq_2 Sys2Proof.core s n
  rw [show core.step s = step s from rfl] at h
  refine h.trans ?_
  cases step s <;> rfl

theorem runSteps_succ {n : Nat} {s t : State} (h : step s = .next t) : runSteps (n + 1) s = runSteps n t := by
  rw [runSteps_succ_eq, h]

/-- A run that goes on is continued by the run from its last state. -/
theorem runSteps_add {m : Nat} {s t : State} (n : Nat) (h : runSteps m s = .next t) :
    runSteps (m + n) s = runSteps n t := by
  induction m generalizing s with
  | zero => cases h; rw [Nat.zero_add]
  | succ m ih =>
    rw [runSteps_succ_eq] at h
    rw [Nat.add_right_comm, runSteps_succ_eq]
    cases hs : step s <;> rw [hs] at h <;> simp only [reduceCtorEq] at h ⊢
    exact ih h

/-- A relation to the first state that every step keeps holds after every run. -/
theorem runSteps_induction {P : State → Prop} (keep : ∀ s t, P s → step s = .next t → P t) {n : Nat} {s t : State}
    (hP : P s) (h : runSteps n s = .next t) : P t := by
  induction n generalizing s with
  | zero => cases h; exact hP
  | succ n ih =>
    rw [runSteps_succ_eq] at h
    cases hs : step s <;> rw [hs] at h <;> simp only [reduceCtorEq] at h
    exact ih (keep _ _ hP hs) h

/-- A run that faults went on up to a state whose step faults. -/
theorem runSteps_fault {n : Nat} {s : State} {f : Fault} (h : runSteps n s = .fault f) :
    ∃ m t, runSteps m s = .next t ∧ step t = .fault f := by
  induction n generalizing s with
  | zero => cases h
  | succ n ih =>
    rw [runSteps_succ_eq] at h
    cases hs : step s with
    | next t =>
      rw [hs] at h
      obtain ⟨m, u, h1, h2⟩ := ih h
      exact ⟨m + 1, u, (runSteps_succ hs).trans h1, h2⟩
    | fault g =>
      rw [hs] at h; cases h
      exact ⟨0, s, rfl, hs⟩
    | refused r => rw [hs] at h; cases h

end Sys2Proof.Machine
end

