-- ==== Sys2Proof/Tests/Slice0.lean ====
section
/-! SUPPORT. Tests. Expected frames, responses and states are those of 95_test_vectors.md (sections in each comment) or
hand calculations from the rules named; then one witness for the hypotheses of each obligation. -/

namespace Sys2Proof.Tests

set_option Elab.async false

open Sys2Proof.Machine

/-! ## Well-formedness -/

theorem test_wellFormed_setPwms : (Instr.setPwms [1, 2, 3, 4]).wellFormed 4 = true := by decide

theorem test_wellFormed_setPwms_short : (Instr.setPwms [1, 2, 3]).wellFormed 4 = false := by decide

theorem test_wellFormed_setPwms_long : (Instr.setPwms [1, 2, 3, 4, 5]).wellFormed 4 = false := by decide

/-! ## Decoding: the frames of section 2.1, and the frames of programs P1, P3 and P4 -/

theorem test_decode_readPwm : decode 4 [0x10, 0x01] = .ok (.readPwm 1) := by decide

theorem test_decode_readPwms : decode 4 [0x11] = .ok .readPwms := by decide

theorem test_decode_setPwm : decode 4 [0x20, 0x00, 0x80] = .ok (.setPwm 0 (-128)) := by decide

theorem test_decode_setPwms : decode 4 [0x21, 0x3F, 0xC0, 0x7E, 0x81] = .ok (.setPwms [63, -64, 126, -127]) := by decide

theorem test_decode_disableOutputs : decode 4 [0x22] = .ok .disableOutputs := by decide

theorem test_decode_readTach : decode 4 [0x30, 0x01] = .ok (.readTach 1) := by decide

theorem test_decode_readTachs : decode 4 [0x31] = .ok .readTachs := by decide

theorem test_decode_readSpeed :
    decode 4 [0x32, 0x01, 0x00, 0x14, 0x00, 0x00, 0x00, 0x00, 0x00, 0x00, 0x00, 0x00, 0x00, 0x1A, 0x40]
      = .ok (.readSpeed 1 0 20 0x401A000000000000) := by decide

theorem test_decode_readSpeeds :
    decode 4 [0x33, 0x01, 0xFF, 0xFF, 0xFF, 0xFF, 0x00, 0x00, 0x00, 0x00, 0x00, 0x00, 0x1A, 0x40]
      = .ok (.readSpeeds 1 (-1) 0x401A000000000000) := by decide

theorem test_decode_distinct_bytes :
    decode 4 [0x32, 0xA1, 0xA2, 0x01, 0x02, 0x03, 0x04, 0x05, 0x06, 0x07, 0x08, 0x09, 0x0A, 0x0B, 0x0C]
      = .ok (.readSpeed 0xA1 0xA2 0x04030201 0x0C0B0A0908070605) := by decide

theorem test_decode_empty : decode 4 [] = .error .emptyFrame := by decide

theorem test_decode_unassigned : decode 4 [0x12, 0x00] = .error (.unassignedOpcode 0x12) := by decide

theorem test_decode_short : decode 4 [0x30] = .error (.wrongLength 0x30 1) := by decide

theorem test_decode_long : decode 4 [0x22, 0x00] = .error (.wrongLength 0x22 2) := by decide

theorem test_decode_setPwms_short : decode 4 [0x21, 0x01, 0x02, 0x03] = .error (.wrongLength 0x21 4) := by decide

/-- A 14-byte READ_SPEED frame is ILLEGAL (section 2.10). -/
theorem test_decode_readSpeed_short :
    decode 4 [0x32, 0x07, 0x00, 0x14, 0x00, 0x00, 0x00, 0x00, 0x00, 0x00, 0x00, 0x00, 0x00, 0x1A]
      = .error (.wrongLength 0x32 14) := by decide

/-- Of the 256 values of byte 0 nine are opcodes (30_encoding.md R100, R105). -/
theorem test_nine_opcodes : ((List.range 256).filter fun b => (opcodeOf (BitVec.ofNat 8 b)).isSome).length = 9 := by
  decide

theorem test_decodeTableWord_readPwm : decodeTableWord 16 0x0110 = some (.readPwm 1) := by decide

/-- A word of one byte is filled up with zero bytes (log 15). -/
theorem test_decodeTableWord_filled : decodeTableWord 8 0x32 = some (.readSpeed 0 0 0 0) := by decide

theorem test_decodeTableWord_unassigned : decodeTableWord 8 0x34 = none := by decide

/-! ## Assembler text (30_encoding.md R107, R108) -/

theorem test_assemble_setPwms :
    assembleLine Config.t0 "SET_PWMS -128, 0, 64, 127" = some (.setPwms [-128, 0, 64, 127]) := by decide +kernel

theorem test_assemble_readSpeed :
    assembleLine Config.t0 "READ_SPEED Tach1, MPH, 20, 6.5" = some (.readSpeed 0 1 20 0x401A000000000000) := by
  decide +kernel

theorem test_assemble_neutralAll :
    assembleLine Config.t0 "NEUTRAL_ALL" = some (.setPwms [0, 0, 0, 0]) := by decide +kernel

/-! ## Shared functions -/

/-- Section 2.5. -/
theorem test_normControl :
    [800, 999, 1000, 1001, 1250, 1499, 1500, 1501, 1750, 1996, 1999, 2000, 2200].map normControl
      = [-180, -129, -128, -128, -64, -1, 0, 0, 64, 126, 127, 128, 179] := by decide

/-- Section 2.6. -/
theorem test_pw :
    [(-128 : BitVec 8), -127, -65, -1, 0, 1, 2, 31, 65, 126, 127].map pw
      = [1000, 1003, 1246, 1496, 1500, 1503, 1507, 1621, 1753, 1992, 1996] := by decide

/-- Section 2.6: with 3/2, SET_PWM 0, -1 writes 2244. -/
theorem test_outRaw_ratio : outRaw { Config.t0 with outTickNum := 3, outTickDen := 2 } (pw (-1)) = 2244 := by decide

/-- Section 2.2: with 3/2, raw 1001 gives 1501. -/
theorem test_ticksToUs_ratio : ticksToUs { Config.t0 with inUsNum := 3, inUsDen := 2 } 1001 = 1501 := by decide

theorem test_channelNames :
    [channelName Config.t0 .input 0, channelName Config.t0 .output 3, channelName { Config.t0 with nOut := 5 } .output 4,
      channelName Config.t0 .tachometer 1, channelName Config.t0 .tachometer 2]
      = [some "Steering", some "Aux4", some "Out5", some "Tach2", none] := by decide +kernel

/-- `PI64` and `F64(0.621371)` as 42_tachometer.md R183 and 00_scope.md R15 print them. -/
theorem test_constants : f64OfRatio 621371 1000000 = 0x3FE3E2456F75D9A1 ∧ toF64 60 = f64c60 := by decide +kernel

/-- Hand calculations: `1/3` and `0.1 + 0.2` in binary64. -/
theorem test_binary64 :
    f64Div (toF64 1) (toF64 3) = 0x3FD5555555555555
    ∧ f64Add (f64OfRatio 1 10) (f64OfRatio 2 10) = 0x3FD3333333333334 := by decide +kernel

/-! ## Steps -/

/-- The state a step goes to, if it goes on. -/
def after (s : State) : Option State :=
  match step s with
  | .next t => some t
  | .fault _ => none
  | .refused _ => none

/-- `s` with one frame issued and the given Bridge answers. -/
def given (s : State) (f : Frame) (answers : List BridgeAnswer) : State := { s with host := [f], bridge := answers }

/-- `S_live(0, 1500)` of 95_test_vectors.md. -/
def live : State := { State.reset with miss := #v[0, 4, 4, 4], lastGood := #v[some 1500, none, none, none] }

/-- Every output at neutral. -/
def driven : State := { State.reset with out := List.replicate 4 (.driving 1500) }

/-- `live` with `W_TACH = 0.5`. -/
def halfWindow : State := { State.reset with cfg := { Config.t0 with wTach := 0x3FE0000000000000 } }

/-- Section 2.2: 2200 is plausible and clamped. -/
theorem test_readPwm_clamped :
    (after (given live [0x10, 0x00] [.values [2200]])).map (fun t => (t.responses, t.miss, t.lastGood, t.bus))
      = some ([[0x00, 0x01, 0xD0, 0x07]], #v[0, 4, 4, 4], #v[some 2000, none, none, none],
          [⟨.read 0x10 1, .values [2200]⟩]) := by decide +kernel

/-- Section 2.2: 2201 is a glitch. -/
theorem test_readPwm_glitch :
    (after (given live [0x10, 0x00] [.values [2201]])).map (fun t => (t.responses, t.miss, t.lastGood))
      = some ([[0x00, 0x01, 0xDC, 0x05]], #v[1, 4, 4, 4], #v[some 1500, none, none, none]) := by decide +kernel

/-- Section 2.4. -/
theorem test_readPwms :
    (after (given State.reset [0x11] [.values [1500, 0, 850, 2201]])).map (fun t => (t.responses, t.miss, t.lastGood))
      = some ([[0x00, 0x01, 0xDC, 0x05, 0x00, 0x00, 0x00, 0x01, 0xE8, 0x03, 0x00, 0x00, 0x00]], #v[0, 4, 0, 4],
          #v[some 1500, none, some 1000, none]) := by decide +kernel

theorem test_readPwms_busError :
    (after (given live [0x11] [.busError])).map (fun t => (t.responses, t.miss, t.lastGood))
      = some ([[0x01]], live.miss, live.lastGood) := by decide +kernel

/-- Section 2.7. -/
theorem test_setPwm_busError :
    (after (given driven [0x20, 0x02, 0x40] [.busError])).map (fun t => (t.responses, t.out, t.bus))
      = some ([[0x01]], [.driving 1500, .driving 1500, .unknown, .driving 1500],
          [⟨.write 0x22 [1750], .busError⟩]) := by decide +kernel

theorem test_setPwm_range :
    (after (given State.reset [0x20, 0x04, 0x00] [.busError])).map (fun t => (t.responses, t.bus, t.bridge))
      = some ([[0x02]], [], [.busError]) := by decide +kernel

/-- Section 2.7. -/
theorem test_setPwms :
    (after (given State.reset [0x21, 0x80, 0x00, 0x40, 0x7F] [.ok])).map (fun t => (t.responses, t.out, t.bus))
      = some ([[0x00]], [.driving 1000, .driving 1500, .driving 1750, .driving 1996],
          [⟨.write 0x20 [1000, 1500, 1750, 1996], .ok⟩]) := by decide +kernel

/-- Section 2.7. -/
theorem test_disableOutputs :
    (after (given driven [0x22] [.ok])).map (fun t => (t.responses, t.out, t.bus))
      = some ([[0x00]], List.replicate 4 .disabled, [⟨.write 0x20 [0, 0, 0, 0], .ok⟩]) := by decide +kernel

/-- Section 1, L1.11. -/
theorem test_readTach :
    (after (given State.reset [0x30, 0x00] [.values [35]])).map (fun t => t.responses)
      = some [[0x00, 0x00, 0x00, 0x00, 0x00, 0x00, 0x40, 0x5A, 0x40]] := by decide +kernel

/-- P4, step 1. -/
theorem test_readTachs :
    (after (given State.reset [0x31] [.values [35, 20]])).map (fun t => (t.responses, t.bus))
      = some ([[0x00, 0x00, 0x00, 0x00, 0x00, 0x00, 0x40, 0x5A, 0x40, 0x00, 0x00, 0x00, 0x00, 0x00, 0x00, 0x4E, 0x40]],
          [⟨.read 0x30 2, .values [35, 20]⟩]) := by decide +kernel

/-- P4, step 2. -/
theorem test_readSpeed :
    (after (given State.reset
      [0x32, 0x01, 0x00, 0x14, 0x00, 0x00, 0x00, 0x00, 0x00, 0x00, 0x00, 0x00, 0x00, 0x1A, 0x40] [.values [100]])).map
        (fun t => (t.responses, t.bus))
      = some ([[0x00, 0x7C, 0x53, 0x12, 0x37, 0xC2, 0x67, 0x0D, 0x40]], [⟨.read 0x31 1, .values [100]⟩]) := by
  decide +kernel

/-- Section 2.9: the diameter `+inf` is invalid. -/
theorem test_readSpeed_infinite :
    (after (given State.reset
      [0x32, 0x00, 0x00, 0x14, 0x00, 0x00, 0x00, 0x00, 0x00, 0x00, 0x00, 0x00, 0x00, 0xF0, 0x7F] [.values [100]])).map
        (fun t => (t.responses, t.bus))
      = some ([[0x02]], []) := by
  decide +kernel

/-- Section 2.9: mph, one wheel stopped, `W_TACH = 0.5`. -/
theorem test_readSpeeds :
    (after (given halfWindow
      [0x33, 0x01, 0x14, 0x00, 0x00, 0x00, 0x00, 0x00, 0x00, 0x00, 0x00, 0x00, 0x1A, 0x40] [.values [100, 0]])).map
        (fun t => t.responses)
      = some [[0x00, 0xC7, 0xCE, 0x7E, 0xEA, 0x87, 0x45, 0x12, 0x40, 0x00, 0x00, 0x00, 0x00, 0x00, 0x00, 0x00, 0x00]] := by
  decide +kernel

theorem test_illegal :
    after (given State.reset [0x22, 0x00] [.ok])
      = some { State.reset with bridge := [.ok], responses := [[0x03]] } := by decide +kernel

/-- The fault of log 10. -/
theorem test_heldValueMissing :
    step (given { State.reset with miss := #v[2, 4, 4, 4] } [0x10, 0x00] [.values [0]])
      = .fault .heldValueMissing := by rfl

/-- A word placed where the next frame is taken runs: without a Bridge answer the command waits (log 3, log 5). -/
theorem test_withFetchWord :
    (after (State.reset.withFetchWord 8 0x22)).map (fun t => t.pending)
      = some (some ⟨.disableOutputs, .write 0x20 [0, 0, 0, 0]⟩) := by decide +kernel

/-! ## Witnesses: states and operands that meet the hypotheses of the obligations

Each theorem is named after its obligation. The states are those above, with the answers of the Bridge listed. -/

/-- `s` with the given Bridge answers. -/
def answering (s : State) (answers : List BridgeAnswer) : State := { s with bridge := answers }

/-- An ill-formed configuration: no output channel. -/
def noOutputs : State := { State.reset with cfg := { Config.t0 with nOut := 0 } }

/-- READ_PWM 1 is in progress and waits for its answer. -/
def waiting : State := { State.reset with pending := some ⟨.readPwm 1, .read 0x11 1⟩ }

theorem witness_DecodeInvertsEncode : (Instr.setPwms [-128, 0, 64, 127]).wellFormed 4 = true := by decide

theorem witness_EncodeInvertsDecode : decode 4 [0x20, 0xFF, 0x7F] = .ok (.setPwm 255 127) := by decide

theorem witness_StepRunsTheDecodedCommand :
    ConfigOk State.reset.cfg ∧ (given State.reset [0x10, 0x03] []).pending = none
    ∧ (given State.reset [0x10, 0x03] []).host = [0x10, 0x03] :: []
    ∧ decode State.reset.cfg.nOut [0x10, 0x03] = .ok (.readPwm 3) := by decide +kernel

theorem witness_StepIdlesOrResumes_idle : State.reset.pending = none ∧ State.reset.host = [] := by decide

theorem witness_StepIdlesOrResumes_resume : waiting.pending = some ⟨.readPwm 1, .read 0x11 1⟩ := by decide

theorem witness_IllegalFrameOnlyAnswers :
    ConfigOk State.reset.cfg ∧ (given State.reset [] []).pending = none ∧ (given State.reset [] []).host = [] :: []
    ∧ decode State.reset.cfg.nOut [] = .error .emptyFrame := by decide +kernel

theorem witness_FetchedWordRuns :
    ConfigOk State.reset.cfg ∧ State.reset.cfg.nOut = 4 ∧ decodeTableWord 24 0x800020 = some (.setPwm 0 (-128)) := by
  decide +kernel

theorem witness_IllFormedConfigurationRefused :
    ¬ ConfigOk noOutputs.cfg ∧ (given noOutputs [0x11] []).host ≠ []
    ∧ ({ waiting with cfg := noOutputs.cfg } : State).pending.isSome = true := by decide +kernel

theorem witness_CommandInProgressRefused :
    ConfigOk waiting.cfg ∧ waiting.pending = some ⟨.readPwm 1, .read 0x11 1⟩ := by decide +kernel

theorem witness_UnansweredCommandStaysStuck :
    Ready State.reset ∧ transactionOf State.reset.cfg .disableOutputs = some (.write 0x20 [0, 0, 0, 0])
    ∧ State.reset.bridge = [] := by decide +kernel

/-- States that meet the invariant, one of them with a command in progress. -/
theorem witness_BlockInv : BlockInv State.reset ∧ BlockInv live ∧ BlockInv driven ∧ BlockInv waiting := by
  decide +kernel

theorem witness_StepKeepsTheInvariant :
    BlockInv (given live [0x10, 0x00] [.values [0]])
    ∧ (after (given live [0x10, 0x00] [.values [0]])).isSome = true := by decide +kernel

theorem witness_StepNeverFaults : BlockInv waiting := by decide +kernel

theorem witness_StepKeepsTheConfiguration : after State.reset = some State.reset := by decide +kernel

/-- Every output at neutral after a failed write and an accepted one. -/
def drivenByBus : State :=
  { driven with bus := [⟨.write 0x20 [1000, 0, 0, 0], .busError⟩, ⟨.write 0x20 [1500, 1500, 1500, 1500], .ok⟩] }

theorem witness_StepKeepsTheOutputRecord :
    RecordMatchesBus (given drivenByBus [0x22] [.busError])
    ∧ (after (given drivenByBus [0x22] [.busError])).isSome = true := by
  refine ⟨⟨by decide, fun k o h => ?_⟩, by decide +kernel⟩
  have hk : k = 0 ∨ k = 1 ∨ k = 2 ∨ k = 3 := by
    have := (List.getElem?_eq_some_iff.1 h).1
    simp [given, drivenByBus, driven] at this
    omega
  rcases hk with rfl | rfl | rfl | rfl <;> (cases h; decide)

theorem witness_TransactionsStayInTheirGroups :
    BusInGroups (given drivenByBus [0x31] [.values [1, 2]])
    ∧ (after (given drivenByBus [0x31] [.values [1, 2]])).isSome = true := by
  refine ⟨?_, by decide +kernel⟩
  intro e he
  simp only [given, drivenByBus, List.mem_cons, List.not_mem_nil, or_false] at he
  rcases he with rfl | rfl <;> (simp only [txnInGroups]; decide)

theorem witness_RunsOnlyAppendToThePorts :
    ∃ t, Host.Core.run Sys2Proof.core 1 (given State.reset [0x22] [.ok]) = .next t := ⟨_, rfl⟩

theorem witness_EveryCommandCompletes :
    Ready (answering live [.values [65535]]) ∧ BlockInv (answering live [.values [65535]])
    ∧ transactionOf live.cfg (.readPwm 0) = some (.read 0x10 1)
    ∧ answerFits live.cfg (.read 0x10 1) (.values [65535]) = true
    ∧ answerFits live.cfg (.read 0x10 1) .busError = true := by decide +kernel

/-- Next states of each kind: no transaction, a wait, an answered read, an answered write and a failed one. -/
theorem witness_CommandIssuesItsTabledTransaction :
    (∃ t, exec (.readPwm 4) State.reset = .next t) ∧ (∃ t, exec .readPwms State.reset = .next t)
    ∧ (∃ t, exec (.readTach 1) (answering State.reset [.values [0]]) = .next t)
    ∧ (∃ t, exec (.setPwm 3 5) (answering State.reset [.ok]) = .next t)
    ∧ ∃ t, exec .disableOutputs (answering State.reset [.busError]) = .next t := by
  refine ⟨⟨_, rfl⟩, ⟨_, rfl⟩, ⟨_, rfl⟩, ⟨_, rfl⟩, ⟨_, rfl⟩⟩

theorem witness_CommandEndsWithOneResponse :
    (∃ t, exec (.setPwms [1]) State.reset = .next t)
    ∧ ∃ t, exec .readTachs (answering State.reset [.values [0, 0]]) = .next t := ⟨⟨_, rfl⟩, ⟨_, rfl⟩⟩

/-- One next state for each command. -/
theorem witness_CommandsWriteOnlyTheirOwnState :
    (∃ t, exec (.readPwm 3) (answering live [.values [1500]]) = .next t)
    ∧ (∃ t, exec .readPwms (answering live [.values [0, 0, 0, 0]]) = .next t)
    ∧ (∃ t, exec (.setPwm 0 0) (answering live [.ok]) = .next t)
    ∧ (∃ t, exec (.setPwms [0, 1, 2, 3]) (answering live [.busError]) = .next t)
    ∧ (∃ t, exec .disableOutputs (answering live [.ok]) = .next t)
    ∧ (∃ t, exec (.readTach 0) (answering live [.values [0]]) = .next t)
    ∧ (∃ t, exec .readTachs (answering live [.values [0, 0]]) = .next t)
    ∧ (∃ t, exec (.readSpeed 0 0 20 0x401A000000000000) (answering live [.values [0]]) = .next t)
    ∧ ∃ t, exec (.readSpeeds 1 20 0x401A000000000000) (answering live [.values [0, 0]]) = .next t := by
  refine ⟨⟨_, rfl⟩, ⟨_, rfl⟩, ⟨_, rfl⟩, ⟨_, rfl⟩, ⟨_, rfl⟩, ⟨_, rfl⟩, ⟨_, rfl⟩, ⟨_, rfl⟩, ⟨_, rfl⟩⟩

/-- The causes of INPUT_ERROR at the edges of their ranges (section 2.9). -/
theorem witness_InputErrorOnlyAnswers :
    Ready State.reset ∧ inputError Config.t0 (.readPwm 4) = true ∧ inputError Config.t0 (.setPwm 4 0) = true
    ∧ inputError Config.t0 (.readTach 2) = true
    ∧ inputError { Config.t0 with tprCfg := #v[0, 20] } (.readTach 0) = true
    ∧ inputError { Config.t0 with tprCfg := #v[20, 0] } .readTachs = true
    ∧ inputError Config.t0 (.readSpeed 0 2 20 0x401A000000000000) = true
    ∧ inputError Config.t0 (.readSpeed 0 0 0 0x401A000000000000) = true
    ∧ inputError Config.t0 (.readSpeeds 0 20 0x7FF0000000000000) = true
    ∧ inputError Config.t0 (.readSpeeds 0 20 0) = true := by decide +kernel

theorem witness_InputErrorOnlyAnswers_converse :
    Ready State.reset
    ∧ ∃ t, exec (.readSpeeds 2 20 0) State.reset = .next t ∧ t.responses = State.reset.responses ++ [[0x02]] :=
  ⟨by decide +kernel, _, rfl, rfl⟩

theorem witness_ReadBusErrorWritesNoState :
    Ready (answering live [.busError]) ∧ transactionOf live.cfg .readTachs = some (.read 0x30 2) := by decide +kernel

theorem witness_WriteBusErrorForgetsCoveredChannels :
    Ready (answering driven [.busError]) ∧ transactionOf driven.cfg (.setPwm 3 0) = some (.write 0x23 [1500]) := by
  decide +kernel

/-- Both edges of the band, 800 and 2200. -/
theorem witness_ReadPwmValidSample :
    Ready (answering live [.values [800]]) ∧ 800 < 2 ^ live.cfg.rawW
    ∧ 800 = 800 * live.cfg.inUsNum / live.cfg.inUsDen ∧ live.cfg.plausMin ≤ 800 ∧ 800 ≤ live.cfg.plausMax
    ∧ 1000 = min (max 800 1000) 2000
    ∧ 2200 = 2200 * live.cfg.inUsNum / live.cfg.inUsDen ∧ live.cfg.plausMin ≤ 2200 ∧ 2200 ≤ live.cfg.plausMax
    ∧ 2000 = min (max 2200 1000) 2000 := by decide +kernel

/-- The last bad sample that is held: the counter goes from 2 to 3. -/
theorem witness_ReadPwmBadSample_held :
    Ready (answering { live with miss := #v[2, 4, 4, 4] } [.values [2201]]) ∧ 2201 < 2 ^ live.cfg.rawW
    ∧ ¬ (live.cfg.plausMin ≤ 2201 * live.cfg.inUsNum / live.cfg.inUsDen
      ∧ 2201 * live.cfg.inUsNum / live.cfg.inUsDen ≤ live.cfg.plausMax)
    ∧ 3 = min (2 + 1) (live.cfg.losTimeout + 1) ∧ 3 ≤ live.cfg.losTimeout ∧ live.lastGood[0] = some 1500 := by
  decide +kernel

/-- The first bad sample past the timeout: the counter goes from 3 to 4. -/
theorem witness_ReadPwmBadSample_noSignal :
    Ready (answering { live with miss := #v[3, 4, 4, 4] } [.values [799]]) ∧ 799 < 2 ^ live.cfg.rawW
    ∧ ¬ (live.cfg.plausMin ≤ 799 * live.cfg.inUsNum / live.cfg.inUsDen
      ∧ 799 * live.cfg.inUsNum / live.cfg.inUsDen ≤ live.cfg.plausMax)
    ∧ 4 = min (3 + 1) (live.cfg.losTimeout + 1) ∧ live.cfg.losTimeout < 4 := by decide +kernel

theorem witness_HeldValueMissingFaults :
    Ready (answering { State.reset with miss := #v[2, 4, 4, 4] } [.values [0]]) ∧ 0 < 2 ^ Config.t0.rawW
    ∧ 0 * Config.t0.inUsNum / Config.t0.inUsDen < Config.t0.plausMin ∧ 2 < Config.t0.losTimeout
    ∧ State.reset.lastGood[0] = none := by decide +kernel

theorem witness_ReadPwmsDecodesEveryLane :
    Ready (answering live [.values [1500, 0, 850, 65535]]) ∧ BlockInv (answering live [.values [1500, 0, 850, 65535]])
    ∧ (answering live [.values [1500, 0, 850, 65535]]).bridge
        = .values (#v[1500, 0, 850, 65535] : Vector Nat 4).toList :: []
    ∧ ∀ i : Fin 4, (#v[1500, 0, 850, 65535] : Vector Nat 4)[i.val] < 2 ^ live.cfg.rawW := by decide +kernel

theorem witness_BatchReadEqualsFourReads :
    Ready live ∧ BlockInv live ∧ 0 < 2 ^ live.cfg.rawW ∧ 65535 < 2 ^ live.cfg.rawW := by decide +kernel

theorem witness_ReadPwmReturnsTheSignalState :
    Ready (answering live [.values [0]]) ∧ BlockInv (answering live [.values [0]]) ∧ 0 < 2 ^ live.cfg.rawW := by
  decide +kernel

/-- The sequence of section 2.3: five bad samples on a live channel, one past the timeout. -/
theorem witness_NoSignalAfterTheTimeout :
    Ready { live with host := List.replicate 5 [0x10, 0x00],
                      bridge := [0, 2500, 700, 0, 65535].map fun raw => .values [raw] }
    ∧ live.miss[0] = 0 ∧ live.lastGood[0] = some 1500
    ∧ ∀ raw ∈ [0, 2500, 700, 0, 65535], raw < 2 ^ live.cfg.rawW
      ∧ ¬ (live.cfg.plausMin ≤ raw * live.cfg.inUsNum / live.cfg.inUsDen
        ∧ raw * live.cfg.inUsNum / live.cfg.inUsDen ≤ live.cfg.plausMax) := by decide +kernel

theorem witness_LoopbackRecoversTheControl :
    Ready (answering State.reset [.ok, .values [1996]]) ∧ Config.t0.inUsNum = Config.t0.inUsDen
    ∧ Config.t0.outTickNum = Config.t0.outTickDen ∧ Config.t0.plausMin ≤ 1000 ∧ 2000 ≤ Config.t0.plausMax
    ∧ 3 < Config.t0.nOut ∧ affineRaw Config.t0 127 = 1996 := by decide +kernel

theorem witness_ProgrammedRawIsNeverSuppressed : ConfigOk Config.t0 := by decide +kernel

theorem witness_SetPwmDrivesItsChannelAlone : Ready (answering driven [.ok]) ∧ 3 < driven.cfg.nOut := by
  decide +kernel

theorem witness_SetPwmsDrivesEveryChannel :
    Ready (answering driven [.ok]) ∧ driven.out.length = driven.cfg.nOut
    ∧ ([-128, 0, 64, 127] : List (BitVec 8)).length = driven.cfg.nOut := by decide +kernel

theorem witness_SetPwmsOfAnotherLengthIsIllegal :
    Ready driven ∧ ([1, 2, 3] : List (BitVec 8)).length ≠ driven.cfg.nOut := by decide +kernel

theorem witness_DisableOutputsReleasesEveryChannel :
    Ready (answering driven [.ok]) ∧ driven.out.length = driven.cfg.nOut := by decide +kernel

theorem witness_DisabledIsNotNeutral :
    Ready (answering driven [.ok]) ∧ driven.out.length = driven.cfg.nOut ∧ 3 < driven.cfg.nOut := by decide +kernel

theorem witness_SetPwmsEqualsSetPwmSequence :
    Ready State.reset ∧ State.reset.out.length = State.reset.cfg.nOut
    ∧ ([-128, 0, 64, 127] : List (BitVec 8)).length = State.reset.cfg.nOut := by decide +kernel

theorem witness_RepeatedWritesAreIdempotent :
    Ready (answering State.reset [.ok, .ok])
    ∧ transactionOf Config.t0 .disableOutputs = some (.write 0x20 [0, 0, 0, 0]) := by decide +kernel

theorem witness_KnownRecordTellsThePulseTrain :
    ConfigOk drivenByBus.cfg ∧ BlockInv drivenByBus ∧ drivenByBus.out[3]? = some (.driving 1500)
    ∧ RecordMatchesBus drivenByBus := by
  refine ⟨by decide +kernel, by decide +kernel, rfl, by decide, fun k o h => ?_⟩
  have hk : k = 0 ∨ k = 1 ∨ k = 2 ∨ k = 3 := by
    have := (List.getElem?_eq_some_iff.1 h).1
    simp [drivenByBus, driven] at this
    omega
  rcases hk with rfl | rfl | rfl | rfl <;> (cases h; decide)

theorem witness_ReadTachAnswersTheRpm :
    Ready (answering State.reset [.values [65535]]) ∧ (0 : Int) < State.reset.cfg.tprCfg[1] ∧ 65535 < 2 ^ Config.t0.rawW := by
  decide +kernel

theorem witness_ReadTachsAnswersBothRpms :
    Ready (answering State.reset [.values [0, 65535]]) ∧ (0 : Int) < State.reset.cfg.tprCfg[0]
    ∧ (0 : Int) < State.reset.cfg.tprCfg[1] ∧ 0 < 2 ^ Config.t0.rawW ∧ 65535 < 2 ^ Config.t0.rawW := by decide +kernel

/-- The least and the greatest valid operands. -/
theorem witness_ReadSpeedAnswersTheSpeed :
    Ready (answering State.reset [.values [1]]) ∧ (1 : Byte).toNat < 2 ∧ (0 : Int) < (1 : BitVec 32).toInt
    ∧ (0 : Int) < (0x7FFFFFFF : BitVec 32).toInt ∧ positiveFinite 1 = true ∧ positiveFinite 0x7FEFFFFFFFFFFFFF = true
    ∧ 1 < 2 ^ Config.t0.rawW := by decide +kernel

theorem witness_ReadSpeedsAnswersBothSpeeds :
    Ready (answering State.reset [.values [50, 0]]) ∧ (0 : Int) < (20 : BitVec 32).toInt
    ∧ positiveFinite 0x401A000000000000 = true ∧ 50 < 2 ^ Config.t0.rawW ∧ 0 < 2 ^ Config.t0.rawW := by decide +kernel

theorem witness_ZeroPulsesGiveZero :
    Ready (answering State.reset [.values [0, 0]]) ∧ isTachometerCommand .readTachs = true
    ∧ transactionOf Config.t0 .readTachs = some (.read 0x30 2)
    ∧ transactionOf Config.t0 (.readSpeed 1 1 1 0x7FEFFFFFFFFFFFFF) = some (.read 0x31 1)
    ∧ (answering State.reset [.values [0, 0]]).bridge = .values (List.replicate 2 0) :: [] := by decide +kernel

/-- The edges of the ranges: `W_TACH = 2^-20`, the greatest count, the greatest diameter. -/
theorem witness_RatesAreNeverNaN :
    windowOk 0x3EB0000000000000 = true ∧ 2 ^ 32 - 1 < 2 ^ 32 ∧ (1 : Int) ≤ 1 ∧ (1 : Int) < 2 ^ 31
    ∧ diaOk 0x7FEFFFFFFFFFFFFF = true := by decide +kernel

theorem witness_RoundingIsToNearestEven :
    0 < 3 ∧ f64IsFinite (f64Round true (1 <<< 1074) 3) = true ∧ f64IsFinite 1 = true := by decide +kernel

theorem witness_ToF64IsExact : (-(2 ^ 53) : Int).natAbs ≤ 2 ^ 53 := by decide

theorem witness_ConstantsAreNearest : f64IsFinite 0x7FEFFFFFFFFFFFFF = true := by decide

theorem witness_NormalizerIsMonotone : (-5 : Int) ≤ 1000 := by decide

theorem witness_AssembledCommandsDecode :
    assembleLine Config.t0 "SET_PWM Aux4, -128" = some (.setPwm 3 (-128)) := by decide +kernel

end Sys2Proof.Tests
end

/-! PROOFS of the statements on 00_scope.md. First the binary64 grid of R15 in whole units of `2^-1074`: which magnitudes
it holds, what the rounding operation picks between two neighbours, and what the bit pattern of a rounded magnitude reads
back as. Last the ill-formed configurations of R12. -/

namespace Sys2Proof.Machine

/-! ## The grid -/

/-- `m` is at most `2^53` steps of some power of two: a magnitude that 53 bits hold at some exponent, however large. -/
def Representable (m : Nat) : Prop := ∃ a j, a ≤ 2 ^ 53 ∧ m = a * 2 ^ j

theorem representable_mul_two_pow {a : Nat} (h : a ≤ 2 ^ 53) (j : Nat) : Representable (a * 2 ^ j) := ⟨a, j, h, rfl⟩

/-- `q` steps of `2^k` in the form in which the format stores them: the leading bit is at place 52 unless the value is
in the lowest binade. `q = 2^53` is the first value of the next binade, where rounding up can arrive. -/
structure OnGrid (q k : Nat) : Prop where
  le : q ≤ 2 ^ 53
  normal : k = 0 ∨ 2 ^ 52 ≤ q

/-- Between neighbours `q` and `q + 1` of the grid lies no representable magnitude. -/
theorem OnGrid.le_or_succ_le {q k m : Nat} (h : OnGrid q k) (hm : Representable m) :
    m ≤ q * 2 ^ k ∨ (q + 1) * 2 ^ k ≤ m := by
  obtain ⟨a, j, ha, rfl⟩ := hm
  rcases Nat.lt_or_ge j k with hj | hj
  · left
    have hq : 2 ^ 52 ≤ q := h.normal.resolve_left (by omega)
    calc a * 2 ^ j ≤ 2 ^ 53 * 2 ^ j := Nat.mul_le_mul_right _ ha
      _ = 2 ^ 52 * 2 ^ (j + 1) := by ring
      _ ≤ q * 2 ^ k := Nat.mul_le_mul hq (Nat.pow_le_pow_right two_pos hj)
  · have hsplit : a * 2 ^ j = a * 2 ^ (j - k) * 2 ^ k := by
      rw [mul_assoc, ← pow_add, Nat.sub_add_cancel hj]
    rw [hsplit]
    rcases Nat.lt_or_ge q (a * 2 ^ (j - k)) with hq | hq
    · exact .inr (Nat.mul_le_mul_right _ hq)
    · exact .inl (Nat.mul_le_mul_right _ hq)

/-! ## Rounding -/

/-- `num / den` is `q` steps of `2^k` and a rest of `r / den` below one more step, and these are the steps of the grid
there. -/
structure GridBracket (num den q k r : Nat) : Prop where
  eq : num = q * (2 ^ k * den) + r
  rest_lt : r < 2 ^ k * den
  lt : q < 2 ^ 53
  normal : k = 0 ∨ 2 ^ 52 ≤ q

theorem GridBracket.onGrid {num den q k r : Nat} (h : GridBracket num den q k r) : OnGrid q k := ⟨h.lt.le, h.normal⟩

theorem GridBracket.succ_onGrid {num den q k r : Nat} (h : GridBracket num den q k r) : OnGrid (q + 1) k :=
  ⟨h.lt, h.normal.imp_right Nat.le_succ_of_le⟩

/-- The quotient that `roundMag` forms has at most 53 bits, and exactly 53 where its steps are longer than one unit. -/
theorem gridBracket_ulpLog (num : Nat) {den : Nat} (hden : 0 < den) :
    GridBracket num den (num / (den <<< ulpLog (num / den))) (ulpLog (num / den))
      (num % (den <<< ulpLog (num / den))) := by
  have hstep : den <<< ulpLog (num / den) = 2 ^ ulpLog (num / den) * den := by
    rw [Nat.shiftLeft_eq, mul_comm]
  have hquot : num / (den <<< ulpLog (num / den)) = num / den / 2 ^ ulpLog (num / den) := by
    rw [Nat.shiftLeft_eq, Nat.div_div_eq_div_mul]
  refine ⟨?_, ?_, ?_, ?_⟩
  · rw [hstep, Nat.div_add_mod']
  · rw [hstep]; exact Nat.mod_lt _ (by positivity)
  · rw [hquot, Nat.div_lt_iff_lt_mul (by positivity), ← pow_add]
    exact Nat.lt_log2_self.trans_le (Nat.pow_le_pow_right two_pos (by unfold ulpLog; omega))
  · rcases Nat.eq_zero_or_pos (ulpLog (num / den)) with hk | hk
    · exact .inl hk
    · right
      have hlog : 52 + ulpLog (num / den) = (num / den).log2 := by unfold ulpLog at hk ⊢; omega
      have hne : num / den ≠ 0 := fun h0 => by rw [h0] at hk; exact absurd hk (by decide)
      rw [hquot, Nat.le_div_iff_mul_le (by positivity), ← pow_add, hlog]
      exact Nat.log2_self_le hne

/-- What rounding picks: the lower end while the rest is at most half a step, the upper end when it is at least half a
step, and with exactly half a step the even one. -/
theorem roundMag_cases (num : Nat) {den : Nat} (hden : 0 < den) :
    ∃ q k r, GridBracket num den q k r ∧
      ((roundMag num den = q * 2 ^ k ∧ 2 * r ≤ 2 ^ k * den ∧ (2 * r = 2 ^ k * den → q % 2 = 0))
      ∨ (roundMag num den = (q + 1) * 2 ^ k ∧ 2 ^ k * den ≤ 2 * r ∧ (2 * r = 2 ^ k * den → q % 2 = 1))) := by
  refine ⟨_, _, _, gridBracket_ulpLog num hden, ?_⟩
  unfold roundMag
  simp only [Nat.shiftLeft_eq, mul_comm den]
  split
  · refine .inr ⟨rfl, ?_, ?_⟩ <;> omega
  · refine .inl ⟨rfl, ?_, ?_⟩ <;> omega

/-- The rounded magnitude is on the grid, no representable magnitude is nearer, and one that is equally near is the same
unless the rounded one is an even number of steps. -/
theorem roundMag_nearestEven (num : Nat) {den : Nat} (hden : 0 < den) :
    ∃ q k, OnGrid q k ∧ roundMag num den = q * 2 ^ k ∧ ∀ m, Representable m →
      |((roundMag num den * den : Nat) : Int) - num| ≤ |((m * den : Nat) : Int) - num|
      ∧ (|((roundMag num den * den : Nat) : Int) - num| = |((m * den : Nat) : Int) - num| →
          m = roundMag num den ∨ q % 2 = 0) := by
  obtain ⟨q, k, r, hb, hround⟩ := roundMag_cases num hden
  have heq := hb.eq
  have hrest := hb.rest_lt
  have hgap : ∀ m, Representable m →
      m * den ≤ q * (2 ^ k * den) ∨ q * (2 ^ k * den) + 2 ^ k * den ≤ m * den := fun m hm => by
    rw [← mul_assoc, ← Nat.add_mul, ← Nat.succ_mul]
    exact (hb.onGrid.le_or_succ_le hm).imp (Nat.mul_le_mul_right _) (Nat.mul_le_mul_right _)
  have hsame : ∀ m, m * den = roundMag num den * den → m = roundMag num den := fun m =>
    Nat.eq_of_mul_eq_mul_right hden
  simp only [Int.abs_eq_natAbs]
  rcases hround with ⟨hdown, hhalf, htie⟩ | ⟨hup, hhalf, htie⟩
  · have hvalue : roundMag num den * den = q * (2 ^ k * den) := by rw [hdown, mul_assoc]
    refine ⟨q, k, hb.onGrid, hdown, fun m hm => ?_⟩
    have hm := hgap m hm
    have hsame := hsame m
    omega
  · have hvalue : roundMag num den * den = q * (2 ^ k * den) + 2 ^ k * den := by rw [hup, mul_assoc, Nat.succ_mul]
    refine ⟨q + 1, k, hb.succ_onGrid, hup, fun m hm => ?_⟩
    have hm := hgap m hm
    have hsame := hsame m
    omega

theorem roundMag_onGrid (num : Nat) {den : Nat} (hden : 0 < den) :
    ∃ q k, OnGrid q k ∧ roundMag num den = q * 2 ^ k := by
  obtain ⟨q, k, hg, heq, -⟩ := roundMag_nearestEven num hden
  exact ⟨q, k, hg, heq⟩

/-- Rounding passes no representable magnitude. -/
theorem roundMag_bounds {m num den : Nat} (hm : Representable m) (hden : 0 < den) :
    (m * den ≤ num → m ≤ roundMag num den) ∧ (num ≤ m * den → roundMag num den ≤ m) := by
  obtain ⟨_, _, _, _, hnear⟩ := roundMag_nearestEven num hden
  have herr := (hnear m hm).1
  simp only [Int.abs_eq_natAbs] at herr
  exact ⟨fun h => Nat.le_of_mul_le_mul_right (by omega) hden, fun h => Nat.le_of_mul_le_mul_right (by omega) hden⟩

/-- Rounding changes no representable magnitude. -/
theorem roundMag_of_representable {m : Nat} (hm : Representable m) : roundMag m 1 = m :=
  le_antisymm ((roundMag_bounds hm one_pos).2 (by omega)) ((roundMag_bounds hm one_pos).1 (by omega))

theorem roundMag_shiftLeft {a : Nat} (h : a ≤ 2 ^ 53) (j : Nat) : roundMag (a <<< j) 1 = a * 2 ^ j := by
  rw [Nat.shiftLeft_eq]
  exact roundMag_of_representable (representable_mul_two_pow h j)

/-- The bracket of a ratio strictly between the last grid point below `2^(e + 54)` and that power itself. -/
theorem GridBracket.eq_last {num den q k r e : Nat} (hb : GridBracket num den q k r)
    (hlast : (2 ^ 53 - 1) * 2 ^ (e + 1) * den < num) (hnext : num < 2 ^ 53 * 2 ^ (e + 1) * den) :
    q = 2 ^ 53 - 1 ∧ k = e + 1 := by
  have heq := hb.eq
  have hrest := hb.rest_lt
  have hlower : q * 2 ^ k * den ≤ num := by rw [mul_assoc]; omega
  have hupper : num < (q + 1) * 2 ^ k * den := by rw [mul_assoc, Nat.succ_mul]; omega
  have hqmax : q ≤ 2 ^ 53 - 1 := Nat.le_sub_one_of_lt hb.lt
  have hge : (2 ^ 53 - 1) * 2 ^ (e + 1) ≤ q * 2 ^ k :=
    (hb.onGrid.le_or_succ_le (representable_mul_two_pow (Nat.sub_le _ _) _)).resolve_right fun h =>
      absurd (Nat.mul_le_mul_right den h) (hlast.trans hupper).not_ge
  have hle : (q + 1) * 2 ^ k ≤ 2 ^ 53 * 2 ^ (e + 1) :=
    (hb.onGrid.le_or_succ_le (representable_mul_two_pow le_rfl _)).resolve_left fun h =>
      absurd (Nat.mul_le_mul_right den h) (hlower.trans_lt hnext).not_ge
  have hke : k ≤ e + 1 := by
    have hsucc : (q + 1) * 2 ^ k = q * 2 ^ k + 2 ^ k := Nat.succ_mul _ _
    exact (Nat.pow_le_pow_iff_right one_lt_two).1 (by omega)
  have hek : e + 1 ≤ k := (Nat.pow_le_pow_iff_right one_lt_two).1 <|
    Nat.le_of_mul_le_mul_left (hge.trans (Nat.mul_le_mul_right _ hqmax)) (by omega)
  obtain rfl : k = e + 1 := le_antisymm hke hek
  exact ⟨le_antisymm hqmax (Nat.le_of_mul_le_mul_right hge (by positivity)), rfl⟩

/-- Rounding reaches a power of two of more than 53 bits exactly from the midpoint between it and its predecessor on the
grid on: the predecessor is an odd number of steps, so the midpoint itself rounds up. -/
theorem two_pow_le_roundMag_iff (e num : Nat) {den : Nat} (hden : 0 < den) :
    2 ^ (e + 54) ≤ roundMag num den ↔ (2 ^ (e + 54) - 2 ^ e) * den ≤ num := by
  have htop : 2 ^ (e + 54) = 2 ^ 53 * 2 ^ (e + 1) := by ring
  have hpow : 2 ^ (e + 1) = 2 * 2 ^ e := pow_succ' 2 e
  have hmid : (2 ^ (e + 54) - 2 ^ e) * den = (2 ^ 54 - 1) * (2 ^ e * den) := by
    rw [show 2 ^ (e + 54) - 2 ^ e = (2 ^ 54 - 1) * 2 ^ e by omega, Nat.mul_assoc]
  have hstep : 2 ^ (e + 1) * den = 2 * (2 ^ e * den) := by rw [hpow, mul_assoc]
  have hpos : 0 < 2 ^ e := by positivity
  have hpos' : 0 < 2 ^ e * den := by positivity
  rw [hmid, htop]
  rcases Nat.lt_or_ge ((2 ^ 53 - 1) * 2 ^ (e + 1) * den) num with hlast | hlast
  · rcases Nat.lt_or_ge num (2 ^ 53 * 2 ^ (e + 1) * den) with hnext | hnext
    · obtain ⟨q, k, r, hb, hround⟩ := roundMag_cases num hden
      obtain ⟨rfl, rfl⟩ := hb.eq_last hlast hnext
      have heq := hb.eq
      omega
    · have hover := (roundMag_bounds (representable_mul_two_pow le_rfl _) hden).1 hnext
      rw [mul_assoc] at hnext
      omega
  · have hunder := (roundMag_bounds (representable_mul_two_pow (Nat.sub_le _ _) _) hden).2 hlast
    rw [mul_assoc] at hlast
    omega

/-! ## Bit patterns -/

/-- The bit patterns of the grid points below `2^1024` stop short of the infinity's. -/
theorem OnGrid.body_lt {q k : Nat} (h : OnGrid q k) (hlt : q * 2 ^ k < 2 ^ 2098) :
    k * 2 ^ 52 + q < 2047 * 2 ^ 52 := by
  have hq := h.le
  have hk : 2 ^ 52 ≤ q → k < 2046 := fun hn => by
    have hpow : 2 ^ (52 + k) < 2 ^ 2098 := by
      rw [pow_add]
      exact Nat.lt_of_le_of_lt (Nat.mul_le_mul_right _ hn) hlt
    rw [pow_lt_pow_iff_right₀ one_lt_two] at hpow
    omega
  have hk' : q = 2 ^ 53 → k < 2045 := fun hn => by
    have hpow : 2 ^ (53 + k) < 2 ^ 2098 := by rwa [pow_add, ← hn]
    rw [pow_lt_pow_iff_right₀ one_lt_two] at hpow
    omega
  have := h.normal
  omega

/-- A grid point's bit pattern, sign apart, counts on from one binade to the next. -/
theorem packMag_of_lt {q k : Nat} (h : OnGrid q k) (hq : q < 2 ^ 53) :
    packMag (q * 2 ^ k) = if q * 2 ^ k < 2 ^ 2098 then k * 2 ^ 52 + q else 2047 <<< 52 := by
  unfold packMag
  rcases Nat.lt_or_ge q (2 ^ 52) with hsub | hnorm
  · obtain rfl : k = 0 := h.normal.resolve_right (by omega)
    have hlt : q * 2 ^ 0 < 2 ^ 2098 := by
      have hpow : 2 ^ 52 < 2 ^ 2098 := pow_lt_pow_right₀ one_lt_two (by omega)
      omega
    rw [if_pos hlt, if_pos (by omega)]
    omega
  · have hge : 2 ^ 52 ≤ q * 2 ^ k := hnorm.trans (Nat.le_mul_of_pos_right _ (by positivity))
    have hlog : (q * 2 ^ k).log2 = 52 + k := by
      rw [Nat.log2_eq_iff (by omega), pow_add, show 52 + k + 1 = 53 + k by omega, pow_add]
      exact ⟨Nat.mul_le_mul_right _ hnorm, Nat.mul_lt_mul_of_pos_right hq (by positivity)⟩
    have hshift : (q * 2 ^ k) >>> (52 + k - 52) = q := by
      rw [Nat.add_sub_cancel_left, Nat.shiftRight_eq_div_pow, Nat.mul_div_cancel _ (by positivity)]
    have hbody : (52 + k - 51) <<< 52 + (q - 2 ^ 52) = k * 2 ^ 52 + q := by rw [Nat.shiftLeft_eq]; omega
    rw [if_neg (Nat.not_lt.2 hge)]
    simp only [← Nat.log2_lt (Nat.ne_of_gt (hge.trans_lt' (by omega))), hlog, hshift, hbody]

theorem packMag_onGrid {q k : Nat} (h : OnGrid q k) :
    packMag (q * 2 ^ k) = if q * 2 ^ k < 2 ^ 2098 then k * 2 ^ 52 + q else 2047 <<< 52 := by
  rcases Nat.lt_or_ge q (2 ^ 53) with hq | hq
  · exact packMag_of_lt h hq
  · obtain rfl : q = 2 ^ 53 := le_antisymm h.le hq
    have hnext : 2 ^ 53 * 2 ^ k = 2 ^ 52 * 2 ^ (k + 1) := by rw [← pow_add, ← pow_add]; congr 1; omega
    have hbody : (k + 1) * 2 ^ 52 + 2 ^ 52 = k * 2 ^ 52 + 2 ^ 53 := by omega
    rw [hnext, packMag_of_lt ⟨by omega, .inr le_rfl⟩ (by omega), hbody]

section
variable {neg : Bool} {body : Nat}

theorem withSign_toNat (h : body < 2 ^ 63) : (withSign neg body).toNat = (if neg then 2 ^ 63 else 0) + body := by
  rw [withSign, BitVec.toNat_ofNat, Nat.one_shiftLeft, Nat.mod_eq_of_lt]
  split <;> omega

theorem f64Sign_withSign (h : body < 2 ^ 63) : f64Sign (withSign neg body) = neg := by
  rw [f64Sign_eq, withSign_toNat h]
  cases neg <;> simp
  omega

theorem f64Exp_withSign (h : body < 2 ^ 63) : f64Exp (withSign neg body) = body / 2 ^ 52 := by
  rw [f64Exp_eq, withSign_toNat h]
  split <;> omega

theorem f64Frac_withSign (h : body < 2 ^ 63) : f64Frac (withSign neg body) = body % 2 ^ 52 := by
  rw [f64Frac_eq, withSign_toNat h]
  split <;> omega

/-- A bit pattern that counts to a grid point reads back as that point. -/
theorem f64Mag_withSign {q k : Nat} (h : OnGrid q k) (hlt : q * 2 ^ k < 2 ^ 2098) :
    f64Mag (withSign neg (k * 2 ^ 52 + q)) = q * 2 ^ k := by
  have hbody := h.body_lt hlt
  have hle := h.le
  have hn := h.normal
  rw [f64Mag, f64Exp_withSign (by omega), f64Frac_withSign (by omega)]
  rcases Nat.lt_or_ge q (2 ^ 52) with hsub | hnorm
  · obtain rfl : k = 0 := hn.resolve_right (by omega)
    rw [if_pos (by omega)]
    omega
  rw [if_neg (by omega), Nat.shiftLeft_eq]
  rcases Nat.lt_or_ge q (2 ^ 53) with hq | hq
  · rw [show 2 ^ 52 + (k * 2 ^ 52 + q) % 2 ^ 52 = q by omega, show (k * 2 ^ 52 + q) / 2 ^ 52 - 1 = k by omega]
  · obtain rfl : q = 2 ^ 53 := le_antisymm hle hq
    rw [show 2 ^ 52 + (k * 2 ^ 52 + 2 ^ 53) % 2 ^ 52 = 2 ^ 52 by omega,
      show (k * 2 ^ 52 + 2 ^ 53) / 2 ^ 52 - 1 = k + 1 by omega]
    ring

end

/-- 53 bits hold the magnitude of every bit pattern, the implicit leading bit included. -/
theorem f64Mag_representable (z : F64) : Representable (f64Mag z) := by
  have hfrac : f64Frac z < 2 ^ 52 := (z.extractLsb' 0 52).isLt
  unfold f64Mag
  split
  · exact ⟨f64Frac z, 0, by omega, by omega⟩
  · exact ⟨2 ^ 52 + f64Frac z, f64Exp z - 1, by omega, Nat.shiftLeft_eq _ _⟩

section
variable (neg : Bool) (num : Nat) {den : Nat} (hden : 0 < den)
include hden

theorem packMag_roundMag_le : packMag (roundMag num den) ≤ 2047 * 2 ^ 52 := by
  obtain ⟨q, k, hg, heq⟩ := roundMag_onGrid num hden
  rw [heq, packMag_onGrid hg]
  split
  · exact (hg.body_lt ‹_›).le
  · exact le_rfl

theorem packMag_roundMag_lt_iff : packMag (roundMag num den) < 2047 * 2 ^ 52 ↔ roundMag num den < 2 ^ 2098 := by
  obtain ⟨q, k, hg, heq⟩ := roundMag_onGrid num hden
  rw [heq, packMag_onGrid hg]
  split
  · exact iff_of_true (hg.body_lt ‹_›) ‹_›
  · exact iff_of_false (lt_irrefl _) ‹_›

theorem f64Sign_f64Round : f64Sign (f64Round neg num den) = neg :=
  f64Sign_withSign ((packMag_roundMag_le num hden).trans_lt (by omega))

theorem f64IsFinite_f64Round : f64IsFinite (f64Round neg num den) = true ↔ roundMag num den < 2 ^ 2098 := by
  have hle := packMag_roundMag_le num hden
  rw [← packMag_roundMag_lt_iff num hden, f64IsFinite, f64Round, f64Exp_withSign (by omega), bne_iff_ne]
  omega

theorem f64IsInf_f64Round : f64IsInf (f64Round neg num den) = true ↔ 2 ^ 2098 ≤ roundMag num den := by
  have hle := packMag_roundMag_le num hden
  rw [← not_lt, ← packMag_roundMag_lt_iff num hden, f64IsInf, f64Round, f64Exp_withSign (by omega),
    f64Frac_withSign (by omega), Bool.and_eq_true, beq_iff_eq, beq_iff_eq]
  omega

theorem f64IsNaN_f64Round : f64IsNaN (f64Round neg num den) = false := by
  have hle := packMag_roundMag_le num hden
  rw [f64IsNaN, f64Round, f64Exp_withSign (by omega), f64Frac_withSign (by omega), Bool.and_eq_false_iff,
    beq_eq_false_iff_ne, bne_eq_false_iff_eq]
  omega

theorem f64Mag_f64Round (hfin : roundMag num den < 2 ^ 2098) : f64Mag (f64Round neg num den) = roundMag num den := by
  obtain ⟨q, k, hg, heq⟩ := roundMag_onGrid num hden
  rw [heq] at hfin
  rw [f64Round, heq, packMag_onGrid hg, if_pos hfin, f64Mag_withSign hg hfin]

end

theorem f64Frac_f64Round_parity (neg : Bool) {num den q k : Nat} (hg : OnGrid q k) (heq : roundMag num den = q * 2 ^ k)
    (hfin : roundMag num den < 2 ^ 2098) : f64Frac (f64Round neg num den) % 2 = q % 2 := by
  rw [heq] at hfin
  have hbody := hg.body_lt hfin
  rw [f64Round, heq, packMag_onGrid hg, if_pos hfin, f64Frac_withSign (by omega)]
  omega

/-! ## The obligations on rounding -/

/-- Settles O54: the overflow threshold is the midpoint of the last gap, and a finite result is the nearest point of the
grid with unbounded exponents, on which every finite value lies. -/
theorem roundingIsToNearestEven : Obligations.RoundingIsToNearestEven := by
  intro neg num den hden
  refine ⟨f64Sign_f64Round neg num hden, f64IsNaN_f64Round neg num hden, ?_, fun hfin z _ => ?_⟩
  · rw [f64IsInf_f64Round neg num hden, show 2098 = 2044 + 54 from rfl]
    exact two_pow_le_roundMag_iff 2044 num hden
  · rw [f64IsFinite_f64Round neg num hden] at hfin
    obtain ⟨q, k, hg, heq, hnear⟩ := roundMag_nearestEven num hden
    obtain ⟨herr, htie⟩ := hnear (f64Mag z) (f64Mag_representable z)
    rw [f64Mag_f64Round neg num hden hfin, f64Frac_f64Round_parity neg hg heq hfin]
    push_cast at herr htie
    exact ⟨herr, htie⟩

/-- Settles O55: `n` units of `2^1074` are representable, so rounding leaves them as they are. -/
theorem toF64IsExact : Obligations.ToF64IsExact := by
  intro n hn
  have hexact : roundMag (n.natAbs <<< 1074) 1 = n.natAbs * 2 ^ 1074 := roundMag_shiftLeft hn 1074
  have hfin : roundMag (n.natAbs <<< 1074) 1 < 2 ^ 2098 := by
    rw [hexact]
    calc n.natAbs * 2 ^ 1074 ≤ 2 ^ 53 * 2 ^ 1074 := Nat.mul_le_mul_right _ hn
      _ = 2 ^ 1127 := by rw [← pow_add]
      _ < 2 ^ 2098 := pow_lt_pow_right₀ one_lt_two (by omega)
  refine ⟨(f64IsFinite_f64Round _ _ one_pos).2 hfin, ?_⟩
  rw [toF64, f64OfRatio, f64Scaled, f64Sign_f64Round _ _ one_pos, f64Mag_f64Round _ _ one_pos hfin, hexact]
  rcases Int.lt_or_le n 0 with hneg | hpos
  · rw [if_pos (decide_eq_true hneg), Nat.cast_mul, Int.ofNat_natAbs_of_nonpos hneg.le, neg_mul, neg_neg, Nat.cast_pow,
      Nat.cast_ofNat]
  · rw [if_neg (by simpa using hpos), Nat.cast_mul, Int.natAbs_of_nonneg hpos, Nat.cast_pow, Nat.cast_ofNat]

/-! ## The constants -/

theorem natAbs_f64Scaled (z : F64) : (f64Scaled z).natAbs = f64Mag z := by
  unfold f64Scaled
  split <;> simp

/-- Around a grid point `p + 1` whose two neighbours have the same step, every finite value is that point or lies at or
beyond one of the neighbours. -/
theorem f64Scaled_cases {p k : Nat} (h : OnGrid p k) (h' : OnGrid (p + 1) k) (z : F64) :
    f64Scaled z ≤ (p * 2 ^ k : Nat) ∨ f64Scaled z = (p * 2 ^ k + 2 ^ k : Nat)
      ∨ ((p * 2 ^ k + 2 * 2 ^ k : Nat) : Int) ≤ f64Scaled z := by
  have hmag := natAbs_f64Scaled z
  have hbelow := h.le_or_succ_le (f64Mag_representable z)
  have habove := h'.le_or_succ_le (f64Mag_representable z)
  have hsucc : (p + 1) * 2 ^ k = p * 2 ^ k + 2 ^ k := Nat.succ_mul _ _
  rw [Nat.succ_mul (p + 1)] at habove
  omega

/-- The binary64 value of such a grid point is the nearest one to every real within half a step of it. -/
theorem f64Scaled_nearest {p k : Nat} (h : OnGrid p k) (h' : OnGrid (p + 1) k) {x : F64}
    (hx : f64Scaled x = (p * 2 ^ k + 2 ^ k : Nat)) {y : ℝ} (hy : |(p + 1 : ℝ) - y| ≤ 1 / 2) (z : F64) :
    |(f64Scaled x : ℝ) - y * 2 ^ k| ≤ |(f64Scaled z : ℝ) - y * 2 ^ k| := by
  have hxr : (f64Scaled x : ℝ) = p * 2 ^ k + 2 ^ k := by rw [hx]; push_cast; rfl
  have hdist : |(p * 2 ^ k + 2 ^ k : ℝ) - y * 2 ^ k| ≤ 2 ^ k / 2 := by
    calc |(p * 2 ^ k + 2 ^ k : ℝ) - y * 2 ^ k| = |((p + 1 : ℝ) - y) * 2 ^ k| := by congr 1; ring
      _ = |(p + 1 : ℝ) - y| * 2 ^ k := by rw [abs_mul, abs_of_pos (by positivity : (0 : ℝ) < 2 ^ k)]
      _ ≤ 1 / 2 * 2 ^ k := by gcongr
      _ = 2 ^ k / 2 := by ring
  obtain ⟨hlow, hhigh⟩ := abs_le.1 hdist
  rw [hxr]
  rcases f64Scaled_cases h h' z with hz | hz | hz
  · have hz' : (f64Scaled z : ℝ) ≤ p * 2 ^ k := by exact_mod_cast hz
    exact hdist.trans (le_abs.2 (.inr (by linarith)))
  · rw [← hxr, hx, hz]
  · have hz' : (p * 2 ^ k + 2 * 2 ^ k : ℝ) ≤ f64Scaled z := by exact_mod_cast hz
    exact hdist.trans (le_abs.2 (.inl (by linarith)))

/-- `PI64` is `0x1921FB54442D18` steps of `2^-51`. -/
theorem f64Scaled_pi64 : f64Scaled pi64 = (0x1921FB54442D17 * 2 ^ 1023 + 2 ^ 1023 : Nat) := by decide +kernel

theorem pi_within_half_step : |((0x1921FB54442D17 : Nat) + 1 : ℝ) - Real.pi * 2 ^ 51| ≤ 1 / 2 := by
  have hlower := Real.pi_gt_d20
  have hupper := Real.pi_lt_d20
  rw [abs_le]
  constructor <;> norm_num <;> linarith

/-- Settles O56: π lies within half a step of `PI64`; the other constants are evaluated. -/
theorem constantsAreNearest : Obligations.ConstantsAreNearest := by
  refine ⟨fun z _ => ?_, by decide +kernel⟩
  rw [show 1074 = 51 + 1023 from rfl, pow_add, ← mul_assoc]
  exact f64Scaled_nearest ⟨by omega, .inr (by omega)⟩ ⟨by omega, .inr (by omega)⟩ f64Scaled_pi64 pi_within_half_step z

/-! ## Ill-formed configurations -/

/-- Under a configuration that breaks 00_scope.md R12 every command is refused. -/
theorem exec_of_illFormedConfiguration {s : State} (h : ¬ ConfigOk s.cfg) (i : Instr) :
    exec i s = .refused .illFormedConfiguration := by
  cases i <;> exact accepted_of_illFormed h _

/-- Settles O9: a command in progress and a frame are refused for the configuration, by `exec` and by `fetch`. -/
theorem illFormedConfigurationRefused : Obligations.IllFormedConfigurationRefused := by
  intro s h
  refine ⟨exec_of_illFormedConfiguration h, fun hbusy => ?_⟩
  unfold step
  rcases fetch_cases s with ⟨p, -, hf⟩ | ⟨hp, hh, -⟩ | ⟨-, f, rest, -, ⟨-, hf⟩ | ⟨hc, -⟩ | ⟨hc, -⟩⟩
  · rw [hf]
    exact exec_of_illFormedConfiguration (s := resume s) h p.cmd
  · simp [hp, hh] at hbusy
  · rw [hf]
  · exact absurd hc h
  · exact absurd hc h

end Sys2Proof.Machine

/-! PROOFS of the statements on 10_state.md. First what one sample does to a channel's bounds, and the principle by which
the rest is proved: a property that each operation of a command keeps is kept by the command, and so by the step. -/

namespace Sys2Proof.Machine

/-! ## One sample -/

section
variable {c : Config} {m m' raw : Nat} {g g' : Option Nat} {sig : SignalState}

/-- The SignalState a sample returns is the one derived from what it leaves (10_state.md R36, R42). -/
theorem LaneSpec.signalOf_eq (h : LaneSpec c m g raw m' g' sig) : signalOf c m' g' = some sig := by
  unfold LaneSpec at h
  split at h
  · obtain ⟨rfl, rfl, rfl⟩ := h
    rfl
  · obtain ⟨-, rfl, h⟩ := h
    unfold signalOf
    split at h
    · rw [if_pos ‹_›, h]
    · obtain ⟨w, rfl, rfl⟩ := h
      exact if_neg ‹_›

/-- A sample keeps the bounds of its channel (10_state.md R34 to R36). -/
theorem LaneSpec.inputOk (h : LaneSpec c m g raw m' g' sig) (hok : InputOk c m g) : InputOk c m' g' := by
  obtain ⟨-, hnone, hwidth⟩ := hok
  unfold LaneSpec at h
  split at h
  · obtain ⟨rfl, rfl, -⟩ := h
    refine ⟨Nat.zero_le _, nofun, fun w hw => ?_⟩
    cases hw
    constructor <;> omega
  · obtain ⟨rfl, rfl, -⟩ := h
    refine ⟨Nat.min_le_right _ _, fun hg => ?_, hwidth⟩
    have := hnone hg
    omega

/-- A channel within its bounds is in none of the states of 93_implementation_defined.md U12. -/
theorem InputOk.exists_decodeSample (hok : InputOk c m g) (raw : Nat) : ∃ r, decodeSample c m g raw = .ok r := by
  obtain ⟨-, hnone, -⟩ := hok
  cases h : decodeSample c m g raw with
  | ok r => exact ⟨r, rfl⟩
  | error f =>
    obtain ⟨-, hmiss, hgood⟩ := (decodeSample_eq_error c m g raw f).1 h
    have := hnone hgood
    omega

theorem signalOf_eq_noSignal : signalOf c m g = some .noSignal ↔ c.losTimeout < m := by
  unfold signalOf
  split <;> simp [*]

theorem InputOk.signalOf_isSome (hok : InputOk c m g) : (signalOf c m g).isSome = true := by
  obtain ⟨-, hnone, -⟩ := hok
  unfold signalOf
  split
  · rfl
  · cases g with
    | none => have := hnone rfl; omega
    | some w => rfl

/-- A width is derived from the last-good value only. -/
theorem lastGood_of_signalOf_valid {w : Nat} (h : signalOf c m g = some (.valid w)) : g = some w := by
  unfold signalOf at h
  split at h
  · cases h
  · simpa using h

end

/-! ## Samples of several channels -/

/-- What decoding one sample keeps, decoding several keeps. -/
theorem decodeChannels_induction {P : State → Prop} {l : List (Fin nIn × Nat)} {s s' : State} {sigs : List SignalState}
    (h : decodeChannels l s = .ok (sigs, s')) (hs : P s)
    (keep : ∀ x ∈ l, ∀ r u, LaneSpec u.cfg u.miss[x.1.val] u.lastGood[x.1.val] x.2 r.miss r.lastGood r.signal →
      P u → P (setChannel x.1 r u)) : P s' := by
  induction l generalizing s sigs with
  | nil => cases h; exact hs
  | cons x rest ih =>
    rw [decodeChannels] at h
    split at h
    · cases h
    · rename_i r hr
      split at h
      · cases h
      · rename_i hrest
        cases h
        exact ih hrest (keep x List.mem_cons_self r s ((decodeSample_eq_ok ..).1 hr) hs)
          fun y hy => keep y (List.mem_cons_of_mem _ hy)

/-- Every input channel is within its bounds (10_state.md R34 to R36). -/
def InputsOk (s : State) : Prop := ∀ k : Fin nIn, InputOk s.cfg s.miss[k.val] s.lastGood[k.val]

theorem InputsOk.setChannel {s : State} (h : InputsOk s) {k : Fin nIn} {r : Sampled}
    (hr : InputOk s.cfg r.miss r.lastGood) : InputsOk (setChannel k r s) := by
  intro j
  by_cases hj : k.val = j.val
  · simpa [hj] using hr
  · simpa [hj] using h j

theorem InputsOk.exists_decodeChannels {s : State} (h : InputsOk s) (l : List (Fin nIn × Nat)) :
    ∃ sigs s', decodeChannels l s = .ok (sigs, s') := by
  induction l generalizing s with
  | nil => exact ⟨_, _, rfl⟩
  | cons x rest ih =>
    obtain ⟨r, hr⟩ := (h x.1).exists_decodeSample x.2
    have hok := ((decodeSample_eq_ok ..).1 hr).inputOk (h x.1)
    obtain ⟨sigs, s', hrest⟩ := ih (h.setChannel (k := x.1) hok)
    exact ⟨r.signal :: sigs, s', by simp only [decodeChannels, hr, hrest]⟩

/-! ## What a command is made of -/

/-- The input channels of which a command takes samples (40_pwm_input.md R127, R128). -/
def SamplesInput : Instr → Fin nIn → Prop
  | .readPwm ch, k => k.val = ch.toNat
  | .readPwms, _ => True
  | .setPwm _ _, _ => False
  | .setPwms _, _ => False
  | .disableOutputs, _ => False
  | .readTach _, _ => False
  | .readTachs, _ => False
  | .readSpeed _ _ _ _, _ => False
  | .readSpeeds _ _ _, _ => False

/-- The records a writing command leaves once its write is answered (20_memory.md R66, R67). -/
def recordsAfter (c : Config) (i : Instr) (x : BridgeAnswer) : List OutState :=
  if x = .ok then recordsWritten c i else (recordsWritten c i).map fun _ => .unknown

/-- `P` holds at `s` and is kept by each operation that the command `i` is made of at `s`. -/
structure KeptByOps (i : Instr) (s : State) (P : State → Prop) : Prop where
  atStart : P s
  onRespond : ∀ st payload u, P u → P (respond st payload u)
  onWait : ∀ x, ConfigOk s.cfg → transactionOf s.cfg i = some x → P (wait i x s)
  onRead : ∀ a n x rest, transactionOf s.cfg i = some (.read a n) → P (answered (.read a n) x rest s)
  onSample : ∀ k raw r u, SamplesInput i k →
    LaneSpec u.cfg u.miss[k.val] u.lastGood[k.val] raw r.miss r.lastGood r.signal → P u → P (setChannel k r u)
  onWrite : ∀ a raws x rest, transactionOf s.cfg i = some (.write a raws) →
    P (setOut (firstWritten i) (recordsAfter s.cfg i x) (answered (.write a raws) x rest s))

/-- What a command does with the values of its read keeps what the samples and the response keep. -/
theorem afterRead_keeps {P : State → Prop} {i : Instr} {s u t : State} (hP : KeptByOps i s P) {vs : List Nat}
    {a n : Nat} (hx : transactionOf s.cfg i = some (.read a n)) (hu : P u) (h : afterRead i vs u = .next t) : P t := by
  have decoded : ∀ l, (∀ x ∈ l, SamplesInput i x.1) → respondDecoded l u = .next t → P t := by
    intro l hl hd
    obtain ⟨sigs, s', hdec, rfl⟩ := respondDecoded_eq_next hd
    exact hP.onRespond _ _ _ (decodeChannels_induction hdec hu fun x hx r v hr => hP.onSample x.1 x.2 r v (hl x hx) hr)
  obtain ⟨-, he, ht⟩ := transactionOf_eq_some.1 hx
  cases i with
  | readPwm ch =>
    refine decoded _ (fun x hx => ?_) h
    have hch : ch.toNat < nIn := by simpa [inputError] using he
    rw [List.mem_singleton.1 (List.of_mem_zip hx).1]
    exact Nat.mod_eq_of_lt hch
  | readPwms => exact decoded _ (fun _ _ => trivial) h
  | setPwm ch v => cases ht
  | setPwms v => cases ht
  | disableOutputs => cases ht
  | readTach ch => cases h; exact hP.onRespond _ _ _ hu
  | readTachs => cases h; exact hP.onRespond _ _ _ hu
  | readSpeed ch unit tpr dia => cases h; exact hP.onRespond _ _ _ hu
  | readSpeeds unit tpr dia => cases h; exact hP.onRespond _ _ _ hu

/-- What each operation of a command keeps, the command keeps. -/
theorem exec_keeps {P : State → Prop} {i : Instr} {s t : State} (hP : KeptByOps i s P) (h : exec i s = .next t) : P t := by
  obtain ⟨hs, ⟨-, st, -, rfl⟩ | ⟨x, hx, -, rfl⟩ | ⟨a, n, rest, hx, -, rfl⟩ | ⟨a, n, vs, rest, hx, -, -, -, ht⟩ |
    ⟨a, raws, rest, hx, -, rfl⟩ | ⟨a, raws, rest, hx, -, rfl⟩⟩ := exec_eq_next h
  · exact hP.onRespond _ _ _ hP.atStart
  · exact hP.onWait x hs.1 hx
  · exact hP.onRespond _ _ _ (hP.onRead a n _ rest hx)
  · exact afterRead_keeps hP hx (hP.onRead a n _ rest hx) ht
  · exact hP.onRespond _ _ _ (hP.onWrite a raws .busError rest hx)
  · exact hP.onRespond _ _ _ (hP.onWrite a raws .ok rest hx)

/-- What responses, the taking of a frame and of a waiting command, and every command keep, every step keeps. -/
theorem step_keeps {P : State → Prop} (onRespond : ∀ st payload u, P u → P (respond st payload u))
    (onFrame : ∀ rest u, P u → P (frameTaken rest u)) (onResume : ∀ u, P u → P (resume u))
    (onExec : ∀ i u t, P u → exec i u = .next t → P t) {s t : State} (hs : P s) (h : step s = .next t) : P t := by
  rcases step_eq_next h with rfl | ⟨-, -, f, rest, -, rfl⟩ | ⟨p, -, ht⟩ | ⟨f, rest, i, -, -, -, ht⟩
  · exact hs
  · exact onRespond _ _ _ (onFrame rest s hs)
  · exact onExec _ _ _ (onResume s hs) ht
  · exact onExec _ _ _ (onFrame rest s hs) ht

/-! ## Output records and registers -/

section
variable {c : Config} {i : Instr} {a j k : Nat} {raws : List Nat} {x : BridgeAnswer} {o : OutState}

@[simp] theorem recordsAfter_length : (recordsAfter c i x).length = (recordsWritten c i).length := by
  unfold recordsAfter
  split <;> simp

/-- A command leaves only records within the bounds of 10_state.md R37. -/
theorem outOk_of_mem_recordsAfter (h : o ∈ recordsAfter c i x) : outOk o = true := by
  have driven : ∀ v, outOk (.driving (pw v)) = true := fun v => by
    obtain ⟨hlow, hhigh⟩ := affineWidth_bounds v
    rw [pw_eq_affineWidth]
    exact decide_eq_true ⟨hlow, hhigh.trans (by omega)⟩
  unfold recordsAfter at h
  split at h
  · cases i with
    | setPwm ch v =>
      rw [List.mem_singleton.1 h]
      exact driven v
    | setPwms v =>
      obtain ⟨y, -, rfl⟩ := List.mem_map.1 h
      exact driven y
    | disableOutputs =>
      rw [List.eq_of_mem_replicate h]
      rfl
    | readPwm | readPwms | readTach | readTachs | readSpeed | readSpeeds => cases h
  · obtain ⟨-, -, rfl⟩ := List.mem_map.1 h
    rfl

/-- The record an answered write leaves of a channel is what it says of the channel's register (10_state.md R37). -/
theorem regStep_write_recordsAfter (hx : transactionOf c i = some (.write a raws))
    (ho : (recordsAfter c i x)[j]? = some o) (r : FarReg) :
    regStep (a + j) r ⟨.write a raws, x⟩ = recordedReg c o := by
  obtain ⟨-, -, hmap⟩ := recordsWritten_spec hx
  have hj : j < raws.length := by
    rw [← recordsWritten_length hx, ← recordsAfter_length (x := x)]
    exact (List.getElem?_eq_some_iff.1 ho).1
  have hcov : a ≤ a + j ∧ a + j < a + raws.length := by omega
  unfold recordsAfter at ho
  split at ho
  · subst x
    have hval := congrArg (·[j]?) hmap
    simp only [List.getElem?_map, ho, Option.map_some, List.getElem?_eq_getElem hj, Option.some.injEq] at hval
    rw [regStep_write_ok hcov, hval, Nat.add_sub_cancel_left, List.getD_eq_getElem _ _ hj]
  · obtain ⟨-, -, rfl⟩ := List.mem_map.1 (List.mem_of_getElem? ho)
    exact (if_pos hcov).trans (if_neg ‹_›)

/-- Which records a write leaves as they were. -/
theorem overlay_getElem?_outside {new out : List OutState} (h : ¬ (k ≤ j ∧ j < k + new.length)) :
    (overlay k new out)[j]? = out[j]? := by
  rw [overlay_getElem?, if_neg fun hj => h ⟨hj.1, hj.2.1⟩]

theorem overlay_getElem?_inside {new out : List OutState} (h : k ≤ j ∧ j < k + new.length) (hj : j < out.length) :
    (overlay k new out)[j]? = new[j - k]? := by
  rw [overlay_getElem?, if_pos ⟨h.1, h.2, hj⟩]

theorem mem_of_mem_overlay {new out : List OutState} (h : o ∈ overlay k new out) : o ∈ new ∨ o ∈ out := by
  obtain ⟨j, hj⟩ := List.mem_iff_getElem?.1 h
  rw [overlay_getElem?] at hj
  split at hj
  · exact .inl (List.mem_of_getElem? hj)
  · exact .inr (List.mem_of_getElem? hj)

end

/-! ## What a command leaves unchanged -/

section
variable {i : Instr} {s t : State} (h : exec i s = .next t)
include h

/-- No command writes a parameter (10_state.md R39) or issues a frame. -/
theorem exec_cfg_host : t.cfg = s.cfg ∧ t.host = s.host :=
  exec_keeps (P := fun u => u.cfg = s.cfg ∧ u.host = s.host)
    { atStart := ⟨rfl, rfl⟩
      onRespond := fun _ _ _ hu => hu
      onWait := fun _ _ _ => ⟨rfl, rfl⟩
      onRead := fun _ _ _ _ _ => ⟨rfl, rfl⟩
      onSample := fun _ _ _ _ _ _ hu => hu
      onWrite := fun _ _ _ _ _ => ⟨rfl, rfl⟩ } h

/-- A channel of which no sample is taken keeps its counter and its last-good value. -/
theorem exec_input_of_not_sampled {k : Fin nIn} (hk : ¬ SamplesInput i k) :
    t.miss[k.val] = s.miss[k.val] ∧ t.lastGood[k.val] = s.lastGood[k.val] := by
  refine exec_keeps (P := fun u => u.miss[k.val] = s.miss[k.val] ∧ u.lastGood[k.val] = s.lastGood[k.val])
    { atStart := ⟨rfl, rfl⟩
      onRespond := fun _ _ _ hu => hu
      onWait := fun _ _ _ => ⟨rfl, rfl⟩
      onRead := fun _ _ _ _ _ => ⟨rfl, rfl⟩
      onSample := ?_
      onWrite := fun _ _ _ _ _ => ⟨rfl, rfl⟩ } h
  intro j _ r u hj _ hu
  have hne : j.val ≠ k.val := fun he => hk (Fin.ext he ▸ hj)
  simpa [hne] using hu

theorem exec_inputs_of_no_sample (hi : ∀ k, ¬ SamplesInput i k) : t.miss = s.miss ∧ t.lastGood = s.lastGood :=
  ⟨Vector.ext fun k hk => (exec_input_of_not_sampled h (hi ⟨k, hk⟩)).1,
    Vector.ext fun k hk => (exec_input_of_not_sampled h (hi ⟨k, hk⟩)).2⟩

/-- A channel that the command's write does not cover keeps its record. -/
theorem exec_out_of_not_covered {k : Nat} (hk : ∀ a raws, transactionOf s.cfg i = some (.write a raws) →
    ¬ (firstWritten i ≤ k ∧ k < firstWritten i + raws.length)) : t.out[k]? = s.out[k]? := by
  refine exec_keeps (P := fun u => u.out[k]? = s.out[k]?)
    { atStart := rfl
      onRespond := fun _ _ _ hu => hu
      onWait := fun _ _ _ => rfl
      onRead := fun _ _ _ _ _ => rfl
      onSample := fun _ _ _ _ _ _ hu => hu
      onWrite := ?_ } h
  intro a raws x rest hx
  refine overlay_getElem?_outside ?_
  rw [recordsAfter_length, recordsWritten_length hx]
  exact hk a raws hx

theorem exec_out_of_no_write (hi : ∀ a raws, tableTransaction s.cfg i ≠ .write a raws) : t.out = s.out :=
  List.ext_getElem? fun _ => exec_out_of_not_covered h fun a raws hx =>
    absurd (transactionOf_eq_some.1 hx).2.2 (hi a raws)

/-- What is known of a register that the command's write does not cover stays as it is. -/
theorem exec_regAfter_of_not_covered {r : Nat}
    (hr : ∀ a raws, transactionOf s.cfg i = some (.write a raws) → ¬ (a ≤ r ∧ r < a + raws.length)) :
    regAfter t.bus r = regAfter s.bus r := by
  exact exec_keeps (P := fun u => regAfter u.bus r = regAfter s.bus r)
    { atStart := rfl
      onRespond := fun _ _ _ hu => hu
      onWait := fun _ _ _ => rfl
      onRead := fun _ _ _ _ _ => (regAfter_append ..).trans (regStep_read ..)
      onSample := fun _ _ _ _ _ _ hu => hu
      onWrite := fun a raws _ _ hx => (regAfter_append ..).trans (regStep_write_outside (hr a raws hx) ..) } h

end

/-! ## The invariants -/

/-- A command keeps the invariant: samples stay within their channels' bounds, writes leave records within theirs, and
a command waits only with its own transaction. -/
theorem exec_keeps_blockInv {i : Instr} {s t : State} (hs : BlockInv s) (h : exec i s = .next t) : BlockInv t := by
  refine exec_keeps (P := BlockInv)
    { atStart := hs
      onRespond := fun _ _ _ hu => hu
      onWait := ?wait
      onRead := fun _ _ _ _ _ => hs
      onSample := ?sample
      onWrite := ?write } h
  case wait =>
    intro x hc hx
    obtain ⟨hin, hlen, hout, -⟩ := hs
    refine ⟨hin, hlen, hout, fun p hp => ?_⟩
    cases hp
    exact ⟨hc, hx⟩
  case sample =>
    rintro k raw r u - hr ⟨hin, hrest⟩
    exact ⟨InputsOk.setChannel hin (hr.inputOk (hin k)), hrest⟩
  case write =>
    intro a raws x rest _
    obtain ⟨hin, hlen, hout, hpend⟩ := hs
    refine ⟨hin, (overlay_length ..).trans hlen, fun o ho => ?_, hpend⟩
    exact (mem_of_mem_overlay ho).elim outOk_of_mem_recordsAfter (hout o)

/-- An answered write keeps the records in step with the registers: both change on the same channels. -/
theorem RecordMatchesBus.write {i : Instr} {s : State} (hs : RecordMatchesBus s) {a : Nat} {raws : List Nat}
    (hx : transactionOf s.cfg i = some (.write a raws)) (x : BridgeAnswer) (rest : List BridgeAnswer) :
    RecordMatchesBus (setOut (firstWritten i) (recordsAfter s.cfg i x) (answered (.write a raws) x rest s)) := by
  obtain ⟨hlen, hreg⟩ := hs
  have hnew : (recordsAfter s.cfg i x).length = raws.length := by rw [recordsAfter_length, recordsWritten_length hx]
  have ha : a = s.cfg.addrOutBase + firstWritten i := (recordsWritten_spec hx).1
  refine ⟨(overlay_length ..).trans hlen, fun k o ho => ?_⟩
  simp only [setOut_out, setOut_bus, setOut_cfg, answered_out, answered_bus, answered_cfg, regAfter_append] at ho ⊢
  by_cases hk : firstWritten i ≤ k ∧ k < firstWritten i + (recordsAfter s.cfg i x).length
  · have hlt : k < s.out.length := by
      rw [← overlay_length]
      exact (List.getElem?_eq_some_iff.1 ho).1
    rw [overlay_getElem?_inside hk hlt] at ho
    rw [show s.cfg.addrOutBase + k = a + (k - firstWritten i) by omega]
    exact regStep_write_recordsAfter hx ho _
  · rw [overlay_getElem?_outside hk] at ho
    rw [regStep_write_outside (by omega)]
    exact hreg k o ho

theorem exec_keeps_recordMatchesBus {i : Instr} {s t : State} (hs : RecordMatchesBus s) (h : exec i s = .next t) :
    RecordMatchesBus t := by
  refine exec_keeps (P := RecordMatchesBus)
    { atStart := hs
      onRespond := fun _ _ _ hu => hu
      onWait := fun _ _ _ => hs
      onRead := ?_
      onSample := fun _ _ _ _ _ _ hu => hu
      onWrite := fun _ _ x rest hx => hs.write hx x rest } h
  intro a n x rest _
  obtain ⟨hlen, hreg⟩ := hs
  refine ⟨hlen, fun k o ho => ?_⟩
  rw [answered_bus, regAfter_append, regStep_read]
  exact hreg k o ho

/-- Settles O14: every command keeps the invariant, and a command taken up again is no longer in progress. -/
theorem stepKeepsTheInvariant : Obligations.StepKeepsTheInvariant := by
  intro s t hs h
  refine step_keeps (P := BlockInv) (fun _ _ _ hu => hu) (fun _ _ hu => hu) ?_
    (fun _ _ _ hu => exec_keeps_blockInv hu) hs h
  rintro u ⟨hin, hlen, hout, -⟩
  exact ⟨hin, hlen, hout, nofun⟩

/-- Settles O19: every command keeps the records in step with the registers, and nothing else of a step touches either. -/
theorem stepKeepsTheOutputRecord : Obligations.StepKeepsTheOutputRecord := by
  intro s t hs h
  exact step_keeps (P := RecordMatchesBus) (fun _ _ _ hu => hu) (fun _ _ hu => hu) (fun _ hu => hu)
    (fun _ _ _ hu => exec_keeps_recordMatchesBus hu) hs h

/-- Settles O17: no command writes a parameter, and neither does the fetch. -/
theorem stepKeepsTheConfiguration : Obligations.StepKeepsTheConfiguration := by
  intro s t h
  exact step_keeps (P := fun u => u.cfg = s.cfg) (fun _ _ _ hu => hu) (fun _ _ hu => hu) (fun _ hu => hu)
    (fun _ _ _ hu ht => (exec_cfg_host ht).1.trans hu) rfl h

/-- Settles O28: each command against the channels that it samples and the transaction of its row. -/
theorem commandsWriteOnlyTheirOwnState : Obligations.CommandsWriteOnlyTheirOwnState := by
  intro i s t h
  refine ⟨exec_cfg_host h, ?_, fun r hr => exec_regAfter_of_not_covered h hr⟩
  cases i with
  | readPwm ch => exact ⟨exec_out_of_no_write h nofun, fun k hk => exec_input_of_not_sampled h hk⟩
  | readPwms => exact exec_out_of_no_write h nofun
  | setPwm ch v =>
    obtain ⟨hmiss, hgood⟩ := exec_inputs_of_no_sample h fun _ => id
    refine ⟨hmiss, hgood, fun k hk => exec_out_of_not_covered h fun a raws hx => ?_⟩
    obtain ⟨-, -, ht⟩ := transactionOf_eq_some.1 hx
    cases ht
    simp only [firstWritten, List.length_singleton]
    omega
  | setPwms v => exact exec_inputs_of_no_sample h fun _ => id
  | disableOutputs => exact exec_inputs_of_no_sample h fun _ => id
  | readTach | readTachs | readSpeed | readSpeeds =>
    obtain ⟨hmiss, hgood⟩ := exec_inputs_of_no_sample h fun _ => id
    exact ⟨hmiss, hgood, exec_out_of_no_write h nofun⟩

/-! ## No fault -/

theorem respondDecoded_ne_fault {s : State} (hs : InputsOk s) (l : List (Fin nIn × Nat)) (f : Fault) :
    respondDecoded l s ≠ .fault f := by
  obtain ⟨sigs, s', hd⟩ := hs.exists_decodeChannels l
  rw [respondDecoded_ok hd]
  nofun

theorem afterRead_ne_fault {s : State} (hs : InputsOk s) (i : Instr) (vs : List Nat) (f : Fault) :
    afterRead i vs s ≠ .fault f := by
  cases i with
  | readPwm ch => exact respondDecoded_ne_fault hs _ f
  | readPwms => exact respondDecoded_ne_fault hs _ f
  | setPwm | setPwms | disableOutputs | readTach | readTachs | readSpeed | readSpeeds => nofun

/-- Only the decoding of samples can fault, and within the channels' bounds it does not (10_state.md R36). -/
theorem exec_ne_fault {s : State} (hs : InputsOk s) (i : Instr) (f : Fault) : exec i s ≠ .fault f := by
  intro h
  have hready : Ready s := by cases i <;> exact (accepted_eq_fault.1 h).1
  match hx : transactionOf s.cfg i with
  | none =>
    obtain ⟨st, -, he⟩ := exec_of_no_transaction hready hx
    rw [he] at h
    cases h
  | some (.read a n) =>
    rw [exec_of_read hready hx] at h
    rcases readBridge_cases i a n s (afterRead i) with
      ⟨-, hr⟩ | ⟨rest, -, hr⟩ | ⟨vs, rest, -, -, -, hr⟩ | ⟨-, hr⟩ <;> rw [hr] at h
    · cases h
    · cases h
    · exact afterRead_ne_fault (s := answered (.read a n) (.values vs) rest s) hs i vs f h
    · cases h
  | some (.write a raws) =>
    rw [exec_of_write hready hx] at h
    rcases writeOutputs_cases i (firstWritten i) raws (recordsWritten s.cfg i) s with
      ⟨-, hr⟩ | ⟨rest, -, hr⟩ | ⟨rest, -, hr⟩ | ⟨-, hr⟩ <;> rw [hr] at h <;> cases h

theorem step_ne_fault {s : State} (hs : InputsOk s) (f : Fault) : step s ≠ .fault f := by
  unfold step
  rcases fetch_cases s with ⟨p, -, hf⟩ | ⟨-, -, hf⟩ | ⟨-, _, rest, -, ⟨-, hf⟩ | ⟨-, -, hf⟩ | ⟨-, i, -, hf⟩⟩ <;> rw [hf]
  · exact exec_ne_fault (s := resume s) hs p.cmd f
  · nofun
  · nofun
  · nofun
  · exact exec_ne_fault (s := frameTaken rest s) hs i f

/-- Settles O15: a channel within its bounds has a last-good value whenever one can be asked for. -/
theorem stepNeverFaults : Obligations.StepNeverFaults := by
  rintro s ⟨hin, -⟩
  exact ⟨step_ne_fault hin, fun k => (hin k).signalOf_isSome⟩

/-! ## Reset -/

section
variable (c : Config)

theorem resetWith_miss (k : Fin nIn) : (State.resetWith c).miss[k.val] = c.losTimeout + 1 :=
  Vector.getElem_replicate ..

theorem resetWith_lastGood (k : Fin nIn) : (State.resetWith c).lastGood[k.val] = none :=
  Vector.getElem_replicate ..

theorem resetWith_out_length : (State.resetWith c).out.length = c.nOut := List.length_replicate

theorem eq_unknown_of_mem_resetWith_out {o : OutState} (h : o ∈ (State.resetWith c).out) : o = .unknown :=
  List.eq_of_mem_replicate h

theorem blockInv_resetWith : BlockInv (State.resetWith c) := by
  refine ⟨fun k => ?_, resetWith_out_length c, fun o ho => ?_, nofun⟩
  · rw [resetWith_miss, resetWith_lastGood]
    exact ⟨le_rfl, fun _ => rfl, nofun⟩
  · rw [eq_unknown_of_mem_resetWith_out c ho]
    rfl

end

/-- Settles O12, field by field of the table. -/
theorem resetLeavesTheTabledState : Obligations.ResetLeavesTheTabledState := by
  intro c
  refine ⟨fun k => ⟨resetWith_miss c k, resetWith_lastGood c k, ?_⟩, resetWith_out_length c,
    fun o => eq_unknown_of_mem_resetWith_out c, rfl, rfl, rfl⟩
  rw [signalStateOf, signalOf_eq_noSignal, resetWith_miss]
  exact Nat.lt_succ_self _

/-- Settles O13; that the test configuration is well formed is evaluated. -/
theorem resetMeetsTheInvariant : Obligations.ResetMeetsTheInvariant :=
  ⟨blockInv_resetWith, blockInv_resetWith Config.t0, by decide +kernel⟩

/-- Settles O18: no transaction was issued, and no record claims one. -/
theorem resetRecordMatchesTheBus : Obligations.ResetRecordMatchesTheBus := by
  refine fun c => ⟨⟨resetWith_out_length c, fun k o ho => ?_⟩, nofun⟩
  rw [eq_unknown_of_mem_resetWith_out c (List.mem_of_getElem? ho)]
  rfl

/-- Settles O16: every state that a run from reset reaches meets the invariant, so its step does not fault. -/
theorem noRunFromResetFaults : Obligations.NoRunFromResetFaults := by
  intro c frames answers n f h
  obtain ⟨m, t, hrun, hstep⟩ := runSteps_fault h
  have hstart : BlockInv { State.resetWith c with host := frames, bridge := answers } := blockInv_resetWith c
  have hinv : BlockInv t := runSteps_induction stepKeepsTheInvariant hstart hrun
  exact (stepNeverFaults t hinv).1 f hstep

/-! ## READ_PWM on an answered sample -/

/-- READ_PWM on an answer of one value decodes it as a sample of its channel (40_pwm_input.md R127). -/
theorem exec_readPwm_values {ch : Byte} (hch : ch.toNat < nIn) {s : State} {raw : Nat} {rest : List BridgeAnswer}
    (hs : Ready s) (hb : s.bridge = .values [raw] :: rest) (hraw : raw < 2 ^ s.cfg.rawW) :
    exec (.readPwm ch) s = respondDecoded [(⟨ch.toNat, hch⟩, raw)]
      (answered (.read (s.cfg.addrInBase + ch.toNat) 1) (.values [raw]) rest s) := by
  have hx : transactionOf s.cfg (.readPwm ch) = some (.read (s.cfg.addrInBase + ch.toNat) 1) :=
    transactionOf_eq_some.2 ⟨rfl, decide_eq_false (Nat.not_le.2 hch), rfl⟩
  have hk : inChannelOf ch = ⟨ch.toNat, hch⟩ := Fin.ext (Nat.mod_eq_of_lt hch)
  rw [exec_of_read hs hx, readBridge_values hb (n := 1) rfl (by simpa using hraw), ← hk]
  rfl

/-- Settles O34: the sample decodes, and its SignalState is the one derived from what it leaves. -/
theorem readPwmReturnsTheSignalState : Obligations.ReadPwmReturnsTheSignalState := by
  rintro ch s raw rest hs ⟨hin, -⟩ hb hraw
  obtain ⟨r, hr⟩ := (hin ch).exists_decodeSample raw
  have hlane := (decodeSample_eq_ok ..).1 hr
  obtain ⟨-, -, hwidth⟩ := hlane.inputOk (hin ch)
  have hsig := hlane.signalOf_eq
  have hval : (BitVec.ofNat 8 ch.val).toNat = ch.val := by rw [BitVec.toNat_ofNat]; omega
  have hexec := exec_readPwm_values (ch := BitVec.ofNat 8 ch.val) (hval.trans_lt ch.isLt) hs hb hraw
  simp only [hval] at hexec
  refine ⟨_, r.signal, hexec.trans (respondDecoded_ok (decodeChannels_single hr)), ?_, ?_, ?_, fun w hw => ?_⟩
  · simpa [signalStateOf] using hsig
  · simp [statusByte]
  · have hiff := signalOf_eq_noSignal (c := s.cfg) (m := r.miss) (g := r.lastGood)
    rw [hsig, Option.some.injEq] at hiff
    simpa using hiff.symm
  · exact hwidth w (lastGood_of_signalOf_valid (hw ▸ hsig))

/-- Settles O31: the sample is implausible, and the counter stays within the timeout. -/
theorem heldValueMissingFaults : Obligations.HeldValueMissingFaults := by
  intro ch hch s raw rest hs hb hraw hlow hmiss hgood
  have hr : decodeSample s.cfg s.miss[ch.toNat] s.lastGood[ch.toNat] raw = .error .heldValueMissing :=
    (decodeSample_eq_error ..).2 ⟨fun hband => Nat.not_le.2 hlow hband.1, hmiss, hgood⟩
  rw [exec_readPwm_values hch hs hb hraw]
  simp [respondDecoded, decodeChannels, hr]

end Sys2Proof.Machine

/-! PROOFS of the statements on 20_memory.md. First what a command does to the ports, which says once how a command can
end: it waits, or it completes with one response and the transaction of its row. -/

namespace Sys2Proof.Machine

/-! ## How a command ends -/

/-- The command `i` ran from `s` to its end at `t`: one response more, and the one transaction of its row with the first
answer at hand, or none (20_memory.md R70, R76). -/
structure Completed (i : Instr) (s t : State) : Prop where
  pending : t.pending = none
  response : ∃ f, t.responses = s.responses ++ [f]
  noTransaction : transactionOf s.cfg i = none → t.bus = s.bus ∧ t.bridge = s.bridge
  oneTransaction : ∀ x, transactionOf s.cfg i = some x →
    ∃ a, s.bridge = a :: t.bridge ∧ t.bus = s.bus ++ [⟨x, a⟩]

section
variable {i : Instr} {s t : State}

/-- A command whose transaction was answered and that then responded has completed. -/
theorem Completed.of_answered {x : Transaction} {a : BridgeAnswer} (hx : transactionOf s.cfg i = some x)
    (hpending : t.pending = none) (hresponse : ∃ f, t.responses = s.responses ++ [f])
    (hbridge : s.bridge = a :: t.bridge) (hbus : t.bus = s.bus ++ [⟨x, a⟩]) : Completed i s t where
  pending := hpending
  response := hresponse
  noTransaction := fun hnone => nomatch hx.symm.trans hnone
  oneTransaction := fun _ hy => Option.some.inj (hx.symm.trans hy) ▸ ⟨a, hbridge, hbus⟩

/-- A command that answers a next state waits for the Bridge (log 5) or has completed. -/
theorem exec_waits_or_completes (h : exec i s = .next t) :
    (∃ x, transactionOf s.cfg i = some x ∧ s.bridge = [] ∧ t = wait i x s) ∨ Completed i s t := by
  obtain ⟨⟨-, hp⟩, ⟨hx, st, -, rfl⟩ | hwait | ⟨a, n, rest, hx, hb, rfl⟩ | ⟨a, n, vs, rest, hx, hb, hl, -, ht⟩ |
    ⟨a, raws, rest, hx, hb, rfl⟩ | ⟨a, raws, rest, hx, hb, rfl⟩⟩ := exec_eq_next h
  · exact .inr ⟨hp, ⟨_, rfl⟩, fun _ => ⟨rfl, rfl⟩, fun _ hsome => nomatch hx.symm.trans hsome⟩
  · exact .inl hwait
  · exact .inr (.of_answered hx hp ⟨_, rfl⟩ hb rfl)
  · obtain ⟨payload, -, heq⟩ := afterRead_eq_next (u := answered (.read a n) (.values vs) rest s) hx hl ht
    rw [heq]
    exact .inr (.of_answered hx hp ⟨_, rfl⟩ hb rfl)
  · exact .inr (.of_answered hx hp ⟨_, rfl⟩ hb rfl)
  · exact .inr (.of_answered hx hp ⟨_, rfl⟩ hb rfl)

/-- With an answer at hand for its transaction a command does not wait. -/
theorem exec_completes (h : exec i s = .next t) (hb : (transactionOf s.cfg i).isSome = true → s.bridge ≠ []) :
    Completed i s t := by
  refine (exec_waits_or_completes h).resolve_left ?_
  rintro ⟨x, hx, hnil, -⟩
  exact hb (by rw [hx]; rfl) hnil

end

/-- Settles O23: a waiting command has issued nothing yet, and a completed one the transaction of its row. -/
theorem commandIssuesItsTabledTransaction : Obligations.CommandIssuesItsTabledTransaction := by
  intro i s t h
  cases hx : transactionOf s.cfg i with
  | none =>
    have hdone := exec_completes h (by simp [hx])
    obtain ⟨hbus, hbridge⟩ := hdone.noTransaction hx
    exact ⟨hbus, hbridge, hdone.pending⟩
  | some x =>
    rcases exec_waits_or_completes h with ⟨y, hy, hb, rfl⟩ | hdone
    · rw [hx] at hy
      cases hy
      exact .inl ⟨hb, rfl, rfl⟩
    · obtain ⟨a, hbridge, hbus⟩ := hdone.oneTransaction x hx
      exact .inr ⟨a, t.bridge, hbridge, rfl, hbus, hdone.pending⟩

/-! ## The ports over a run -/

/-- From `s` to `t` the outputs were only appended to and the inputs only taken from the front (20_memory.md R78). -/
structure PortsAdvance (s t : State) : Prop where
  bus : s.bus <+: t.bus
  responses : s.responses <+: t.responses
  host : t.host <:+ s.host
  bridge : t.bridge <:+ s.bridge

theorem PortsAdvance.refl (s : State) : PortsAdvance s s :=
  ⟨List.prefix_rfl, List.prefix_rfl, List.suffix_rfl, List.suffix_rfl⟩

theorem PortsAdvance.trans {s t u : State} (h : PortsAdvance s t) (h' : PortsAdvance t u) : PortsAdvance s u :=
  ⟨h.bus.trans h'.bus, h.responses.trans h'.responses, h'.host.trans h.host, h'.bridge.trans h.bridge⟩

theorem wait_portsAdvance (i : Instr) (x : Transaction) (s : State) : PortsAdvance s (wait i x s) :=
  ⟨List.prefix_rfl, List.prefix_rfl, List.suffix_rfl, List.suffix_rfl⟩

theorem resume_portsAdvance (s : State) : PortsAdvance s (resume s) :=
  ⟨List.prefix_rfl, List.prefix_rfl, List.suffix_rfl, List.suffix_rfl⟩

theorem frameTaken_portsAdvance {s : State} {f : Frame} {rest : List Frame} (h : s.host = f :: rest) :
    PortsAdvance s (frameTaken rest s) :=
  ⟨List.prefix_rfl, List.prefix_rfl, h ▸ List.suffix_cons .., List.suffix_rfl⟩

theorem respond_portsAdvance (st : Status) (payload : List Byte) (s : State) :
    PortsAdvance s (respond st payload s) :=
  ⟨List.prefix_rfl, List.prefix_append .., List.suffix_rfl, List.suffix_rfl⟩

theorem Completed.portsAdvance {i : Instr} {s t : State} (h : Completed i s t) (hhost : t.host = s.host) :
    PortsAdvance s t := by
  obtain ⟨-, ⟨f, hf⟩, hnone, hone⟩ := h
  have hresponses : s.responses <+: t.responses := hf ▸ List.prefix_append ..
  have hframes : t.host <:+ s.host := hhost ▸ List.suffix_rfl
  cases hx : transactionOf s.cfg i with
  | none =>
    obtain ⟨hbus, hbridge⟩ := hnone hx
    exact ⟨hbus ▸ List.prefix_rfl, hresponses, hframes, hbridge ▸ List.suffix_rfl⟩
  | some x =>
    obtain ⟨a, hbridge, hbus⟩ := hone x hx
    exact ⟨hbus ▸ List.prefix_append .., hresponses, hframes, hbridge ▸ List.suffix_cons ..⟩

theorem exec_portsAdvance {i : Instr} {s t : State} (h : exec i s = .next t) : PortsAdvance s t := by
  rcases exec_waits_or_completes h with ⟨x, -, -, rfl⟩ | hdone
  · exact wait_portsAdvance i x s
  · exact hdone.portsAdvance (exec_cfg_host h).2

theorem step_portsAdvance {s t : State} (h : step s = .next t) : PortsAdvance s t := by
  rcases step_eq_next h with rfl | ⟨-, -, f, rest, hh, rfl⟩ | ⟨p, -, ht⟩ | ⟨f, rest, i, -, hh, -, ht⟩
  · exact .refl t
  · exact (frameTaken_portsAdvance hh).trans (respond_portsAdvance ..)
  · exact (resume_portsAdvance s).trans (exec_portsAdvance ht)
  · exact (frameTaken_portsAdvance hh).trans (exec_portsAdvance ht)

/-- Settles O21: every step advances the ports, and advances compose. -/
theorem runsOnlyAppendToThePorts : Obligations.RunsOnlyAppendToThePorts := by
  intro n s t h
  obtain ⟨hbus, hresponses, hhost, hbridge⟩ := runSteps_induction (P := PortsAdvance s)
    (fun _ _ hadv hstep => hadv.trans (step_portsAdvance hstep)) (.refl s) h
  exact ⟨hbus, hresponses, hhost, hbridge⟩

/-! ## The groups -/

/-- The table of 20_memory.md R76 stays in the groups of R61: the operand checks bound the channel. -/
theorem txnInGroups_of_transactionOf {c : Config} (hc : ConfigOk c) {i : Instr} {x : Transaction}
    (hx : transactionOf c i = some x) : txnInGroups c x := by
  obtain ⟨-, -, -, ⟨hout, -⟩, -⟩ := configRules hc
  obtain ⟨hw, he, rfl⟩ := transactionOf_eq_some.1 hx
  cases i with
  | readPwm ch =>
    have hch : ch.toNat < nIn := by simpa [inputError] using he
    exact ⟨le_rfl, .inl ⟨Nat.le_add_right .., Nat.add_le_add_left hch _⟩⟩
  | readPwms => exact ⟨by decide, .inl ⟨le_rfl, le_rfl⟩⟩
  | setPwm ch v =>
    have hch : ch.toNat < c.nOut := by simpa [inputError] using he
    exact ⟨le_rfl, Nat.le_add_right .., Nat.add_le_add_left hch _⟩
  | setPwms v =>
    have hlen : v.length = c.nOut := by simpa [Instr.wellFormed] using hw
    simp [tableTransaction, txnInGroups, hlen, hout]
  | disableOutputs => simp [tableTransaction, txnInGroups, hout]
  | readTach ch =>
    obtain ⟨hch, -⟩ := Bool.or_eq_false_iff.1 he
    exact ⟨le_rfl, .inr ⟨Nat.le_add_right .., Nat.add_le_add_left (Nat.not_le.1 (of_decide_eq_false hch)) _⟩⟩
  | readTachs => exact ⟨by decide, .inr ⟨le_rfl, le_rfl⟩⟩
  | readSpeed ch unit tpr dia =>
    have hch : ch.toNat < nTach := by
      by_contra hn
      simp [inputError, Nat.not_lt.1 hn] at he
    exact ⟨le_rfl, .inr ⟨Nat.le_add_right .., Nat.add_le_add_left hch _⟩⟩
  | readSpeeds unit tpr dia => exact ⟨by decide, .inr ⟨le_rfl, le_rfl⟩⟩

theorem BusInGroups.answered {s : State} (hs : BusInGroups s) {x : Transaction} (hx : txnInGroups s.cfg x)
    (a : BridgeAnswer) (rest : List BridgeAnswer) : BusInGroups (answered x a rest s) := by
  intro e he
  rcases List.mem_append.1 he with hold | hnew
  · exact hs e hold
  · rw [List.mem_singleton.1 hnew]
    exact hx

theorem exec_keeps_busInGroups {i : Instr} {s t : State} (hs : BusInGroups s) (h : exec i s = .next t) :
    BusInGroups t := by
  obtain ⟨⟨hc, -⟩, -⟩ := exec_eq_next h
  exact exec_keeps (P := BusInGroups)
    { atStart := hs
      onRespond := fun _ _ _ hu => hu
      onWait := fun _ _ _ => hs
      onRead := fun _ _ x rest hx => hs.answered (txnInGroups_of_transactionOf hc hx) x rest
      onSample := fun _ _ _ _ _ _ hu => hu
      onWrite := fun _ _ x rest hx => hs.answered (txnInGroups_of_transactionOf hc hx) x rest } h

/-- Settles O20: only a command's own transaction is added, and it is in its group. -/
theorem transactionsStayInTheirGroups : Obligations.TransactionsStayInTheirGroups := by
  intro s t hs h
  exact step_keeps (P := BusInGroups) (fun _ _ _ hu => hu) (fun _ _ hu => hu) (fun _ hu => hu)
    (fun _ _ _ hu => exec_keeps_busInGroups hu) hs h

/-! ## Completion -/

theorem respondDecoded_ne_refused (l : List (Fin nIn × Nat)) (s : State) (r : Refusal) :
    respondDecoded l s ≠ .refused r := by
  unfold respondDecoded
  split <;> nofun

theorem afterRead_ne_refused (i : Instr) (vs : List Nat) (s : State) (r : Refusal) : afterRead i vs s ≠ .refused r := by
  cases i with
  | readPwm ch => exact respondDecoded_ne_refused _ s r
  | readPwms => exact respondDecoded_ne_refused _ s r
  | setPwm | setPwms | disableOutputs | readTach | readTachs | readSpeed | readSpeeds => nofun

/-- The answer at hand, if any, is one that 20_memory.md R62 allows for the transaction. -/
def FirstAnswerFits (s : State) (x : Transaction) : Prop :=
  ∀ a rest, s.bridge = a :: rest → answerFits s.cfg x a = true

/-- A command that can run is refused only for an answer outside 20_memory.md R62 (log 6). -/
theorem exec_ne_refused {i : Instr} {s : State} (hs : Ready s)
    (hfits : ∀ x, transactionOf s.cfg i = some x → FirstAnswerFits s x) (r : Refusal) : exec i s ≠ .refused r := by
  intro h
  match hx : transactionOf s.cfg i with
  | none =>
    obtain ⟨st, -, he⟩ := exec_of_no_transaction hs hx
    rw [he] at h
    cases h
  | some (.read a n) =>
    rw [exec_of_read hs hx] at h
    rcases readBridge_cases i a n s (afterRead i) with
      ⟨-, hr⟩ | ⟨rest, -, hr⟩ | ⟨vs, rest, -, -, -, hr⟩ | ⟨⟨y, rest, hb, hbad⟩, -⟩
    · cases hr.symm.trans h
    · cases hr.symm.trans h
    · exact afterRead_ne_refused _ _ _ _ (hr.symm.trans h)
    · exact absurd (hfits _ hx y rest hb) (by simp [hbad])
  | some (.write a raws) =>
    rw [exec_of_write hs hx] at h
    obtain ⟨ha, -⟩ := recordsWritten_spec hx
    rcases writeOutputs_cases i (firstWritten i) raws (recordsWritten s.cfg i) s with
      ⟨-, hr⟩ | ⟨rest, -, hr⟩ | ⟨rest, -, hr⟩ | ⟨⟨y, rest, hb, hbad⟩, -⟩
    · cases hr.symm.trans h
    · cases hr.symm.trans h
    · cases hr.symm.trans h
    · rw [← ha] at hbad
      exact absurd (hfits _ hx y rest hb) (by simp [hbad])

/-- Settles O22: the command neither faults nor is refused, and with its answer at hand it does not wait. -/
theorem everyCommandCompletes : Obligations.EveryCommandCompletes := by
  rintro i s hs ⟨hin, -⟩ hanswer
  have hfits : ∀ x, transactionOf s.cfg i = some x → FirstAnswerFits s x := by
    intro x hx a rest hb
    obtain ⟨a', rest', hb', hfit⟩ := hanswer x hx
    rw [hb'] at hb
    cases hb
    exact hfit
  cases h : exec i s with
  | fault f => exact absurd h (exec_ne_fault hin i f)
  | refused r => exact absurd h (exec_ne_refused hs hfits r)
  | next t =>
    have hdone : Completed i s t := exec_completes h fun hsome => by
      obtain ⟨x, hx⟩ := Option.isSome_iff_exists.1 hsome
      obtain ⟨a, rest, hb, -⟩ := hanswer x hx
      simp [hb]
    obtain ⟨f, hf⟩ := hdone.response
    exact ⟨t, f, rfl, hdone.pending, hf⟩

/-! ## A step that runs a command -/

theorem step_of_fetch_command {i : Instr} {s t : State} (h : fetch s = .command i t) : step s = exec i t := by
  simp only [step, h]

theorem fetch_of_decode {i : Instr} {s : State} {f : Frame} {rest : List Frame} (hc : ConfigOk s.cfg)
    (hp : s.pending = none) (hh : s.host = f :: rest) (hd : decode s.cfg.nOut f = .ok i) :
    fetch s = .command i (frameTaken rest s) := by
  simp only [fetch, hp, hh, if_pos hc, hd]

theorem fetch_of_pending {s : State} {p : Pending} (hp : s.pending = some p) :
    fetch s = .command p.cmd (resume s) := by
  simp only [fetch, hp]

/-- Settles O5, through what the fetch takes. -/
theorem stepRunsTheDecodedCommand : Obligations.StepRunsTheDecodedCommand := by
  intro s f rest i hc hp hh hd
  exact step_of_fetch_command (fetch_of_decode hc hp hh hd)

/-! ## Waiting for the Bridge -/

/-- A command that reaches its transaction with no answer at hand waits (20_memory.md R77; log 5). -/
theorem exec_of_unanswered {i : Instr} {s : State} {x : Transaction} (hs : Ready s)
    (hx : transactionOf s.cfg i = some x) (hb : s.bridge = []) : exec i s = .next (wait i x s) := by
  cases x with
  | read a n => rw [exec_of_read hs hx, readBridge_unanswered hb]
  | write a raws =>
    obtain ⟨rfl, -⟩ := recordsWritten_spec hx
    rw [exec_of_write hs hx, writeOutputs_unanswered hb]

/-- Taking up a command that waits undoes the wait. -/
theorem resume_wait {s : State} (hp : s.pending = none) (i : Instr) (x : Transaction) : resume (wait i x s) = s := by
  cases s
  cases hp
  rfl

theorem step_wait {i : Instr} {s : State} {x : Transaction} (hs : Ready s) (hx : transactionOf s.cfg i = some x)
    (hb : s.bridge = []) : step (wait i x s) = .next (wait i x s) := by
  rw [step_of_fetch_command (fetch_of_pending rfl), resume_wait hs.2]
  exact exec_of_unanswered hs hx hb

/-- A state that a step does not change is where every run from it ends. -/
theorem runSteps_of_step_eq_self {s : State} (h : step s = .next s) (n : Nat) : runSteps n s = .next s := by
  induction n with
  | zero => rfl
  | succ n ih => rw [runSteps_succ h, ih]

/-- Settles O11: the waiting state is its own next state. -/
theorem unansweredCommandStaysStuck : Obligations.UnansweredCommandStaysStuck := by
  intro i s x hs hx hb
  exact ⟨exec_of_unanswered hs hx hb, runSteps_of_step_eq_self (step_wait hs hx hb)⟩

/-! ## Failed writes -/

/-- Forgetting some channels is a map over all of them. -/
theorem overlay_unknown (k : Nat) (new out : List OutState) :
    overlay k (new.map fun _ => .unknown) out
      = out.mapIdx fun j o => if k ≤ j ∧ j < k + new.length then .unknown else o := by
  apply List.ext_getElem?
  intro j
  rw [List.getElem?_mapIdx]
  by_cases hcov : k ≤ j ∧ j < k + new.length
  · by_cases hj : j < out.length
    · have hnew : j - k < new.length := by omega
      rw [overlay_getElem?_inside (by simpa using hcov) hj]
      simp [hcov, hj, hnew]
    · have hlen := Nat.not_lt.1 hj
      rw [List.getElem?_eq_none (by simpa using hlen), List.getElem?_eq_none hlen]
      rfl
  · rw [overlay_getElem?_outside (by simpa using hcov)]
    simp [hcov]

/-- Settles O27: the records of the covered channels are overlaid with `Unknown`, and so is what is known of their
registers. -/
theorem writeBusErrorForgetsCoveredChannels : Obligations.WriteBusErrorForgetsCoveredChannels := by
  intro i s a vs rest hs hx hb
  constructor
  · obtain ⟨rfl, -⟩ := recordsWritten_spec hx
    rw [exec_of_write hs hx, writeOutputs_busError hb]
    simp only [respond, setOut, answered, statusByte, overlay_unknown, recordsWritten_length hx, Nat.add_assoc,
      Nat.add_le_add_iff_left, Nat.add_lt_add_iff_left]
  · intro r hlow hhigh
    rw [regAfter_append, regStep_write_busError ⟨hlow, hhigh⟩]

/-! ## What a record tells -/

/-- The register value that a known record stands for generates the record's pulse train (20_memory.md R64): a driven
width within its bounds is never programmed as the suppressed-pulse value. -/
theorem recordedReg_generates {c : Config} (hc : ConfigOk c) {o : OutState} (ho : outOk o = true) (hne : o ≠ .unknown) :
    ∃ v, recordedReg c o = .holds v ∧ Generates c v (pulseTrain o) := by
  cases o with
  | unknown => exact absurd rfl hne
  | disabled => exact ⟨0, rfl, rfl⟩
  | driving w =>
    obtain ⟨hlow, hhigh⟩ : WidthOk w := of_decide_eq_true ho
    obtain ⟨hpos, -⟩ := outRaw_bounds hc hlow hhigh
    exact ⟨outRaw c w, rfl, Nat.one_le_iff_ne_zero.1 hpos, rfl⟩

/-- Settles O46: the register is the recorded one, and the invariant bounds the record. -/
theorem knownRecordTellsThePulseTrain : Obligations.KnownRecordTellsThePulseTrain := by
  rintro s k o hc ⟨-, -, hout, -⟩ ⟨-, hreg⟩ hk hne
  rw [hreg k o hk]
  exact recordedReg_generates hc (hout o (List.mem_of_getElem? hk)) hne

end Sys2Proof.Machine

/-! PROOFS of the statements on 30_encoding.md. First the byte order of R93 and the formats of R99, one rule for each;
then the decoder, which reads exactly the encodings of the well-formed commands, and what the other statements take from
it. -/

namespace Sys2Proof

open Sys2Proof.Laws.EncodedLength (opcodeOfInstr)

/-! ## Byte order -/

section
variable {w n : Nat}

@[simp] theorem byteOf_zero (b : Byte) : byteOf b 0 = b := BitVec.extractLsb'_eq_self

theorem byteOf_append_zero (hi : BitVec w) (lo : Byte) : byteOf (hi ++ lo) 0 = lo := by
  ext k hk
  simp [byteOf, BitVec.getLsbD_append, hk]

theorem byteOf_append_succ (hi : BitVec w) (lo : Byte) (b : Nat) : byteOf (hi ++ lo) (b + 1) = byteOf hi b := by
  ext k hk
  have hb : ¬ 8 * (b + 1) + k < 8 := by omega
  have hsub : 8 * (b + 1) + k - 8 = 8 * b + k := by omega
  simp [byteOf, BitVec.getLsbD_append, hb, hsub]

/-- The bytes of a value joined from a low byte and the rest: the low byte comes first. -/
theorem bytesOf_append (hi : BitVec w) (lo : Byte) : bytesOf (n + 1) (hi ++ lo) = lo :: bytesOf n hi := by
  simp [bytesOf, List.range_succ_eq_map, byteOf_append_zero, byteOf_append_succ]

theorem bytesOf_byte (b : Byte) : bytesOf 1 b = [b] := by
  simp [bytesOf, List.range_one]

/-- The bytes of a value fix each of its bits. -/
theorem bytesOf_injective : Function.Injective (bytesOf n : BitVec (8 * n) → List Byte) := by
  intro u v h
  have hbyte : ∀ b < n, byteOf u b = byteOf v b := fun b hb =>
    List.map_inj_left.1 h b (List.mem_range.2 hb)
  ext k hk
  have hbit := congrArg (·.getLsbD (k % 8)) (hbyte (k / 8) (by omega))
  have hk8 : k % 8 < 8 := Nat.mod_lt _ (by decide)
  simpa [byteOf, hk8, Nat.div_add_mod, hk] using hbit

end

section
variable (b0 b1 b2 b3 b4 b5 b6 b7 : Byte)

theorem bytesOf_join32 : bytesOf 4 (join32 b0 b1 b2 b3) = [b0, b1, b2, b3] := by
  simp only [join32, bytesOf_append, bytesOf_byte]

theorem bytesOf_join64 : bytesOf 8 (join64 b0 b1 b2 b3 b4 b5 b6 b7) = [b0, b1, b2, b3, b4, b5, b6, b7] := by
  simp only [join64, bytesOf_append, bytesOf_byte]

end

theorem join32_bytes (v : BitVec 32) : join32 (byteOf v 0) (byteOf v 1) (byteOf v 2) (byteOf v 3) = v :=
  bytesOf_injective (n := 4) (bytesOf_join32 ..)

theorem join64_bytes (v : BitVec 64) :
    join64 (byteOf v 0) (byteOf v 1) (byteOf v 2) (byteOf v 3) (byteOf v 4) (byteOf v 5) (byteOf v 6)
      (byteOf v 7) = v :=
  bytesOf_injective (n := 8) (bytesOf_join64 ..)

/-! ## The formats -/

section
variable {nOut : Nat} {args : List Byte}

theorem splitF0_eq_some {x : Unit} : splitF0 args = some x ↔ args = [] := by
  cases args <;> simp [splitF0]

theorem splitFC_eq_some {ch : Byte} : splitFC args = some ch ↔ args = [ch] := by
  unfold splitFC
  split <;> simp_all

theorem splitFCV_eq_some {x : Byte × Byte} : splitFCV args = some x ↔ args = [x.1, x.2] := by
  unfold splitFCV
  split
  · simp [Prod.ext_iff]
  · rename_i hne
    simpa using hne x.1 x.2

theorem splitFV_eq_some {v : List Byte} : splitFV nOut args = some v ↔ args = v ∧ v.length = nOut := by
  unfold splitFV
  split
  · simp_all [eq_comm]
  · simp only [reduceCtorEq, false_iff]
    rintro ⟨rfl, hlen⟩
    contradiction

theorem splitFSPDS_eq_some {x : Byte × BitVec 32 × F64} :
    splitFSPDS args = some x ↔ args = x.1 :: (bytesOf 4 x.2.1 ++ bytesOf 8 x.2.2) := by
  constructor
  · intro h
    unfold splitFSPDS at h
    split at h
    · cases h
      rw [bytesOf_join32, bytesOf_join64]
      rfl
    · cases h
  · obtain ⟨u, tpr, dia⟩ := x
    rintro rfl
    change some (u, join32 .., join64 ..) = _
    rw [join32_bytes, join64_bytes]

theorem splitFSPD_eq_some {x : Byte × Byte × BitVec 32 × F64} :
    splitFSPD args = some x ↔ args = x.1 :: x.2.1 :: (bytesOf 4 x.2.2.1 ++ bytesOf 8 x.2.2.2) := by
  cases args with
  | nil => simp [splitFSPD]
  | cons ch rest =>
    simp only [splitFSPD, Option.map_eq_some_iff, splitFSPDS_eq_some, List.cons.injEq]
    constructor
    · rintro ⟨f, rfl, rfl⟩
      exact ⟨rfl, rfl⟩
    · rintro ⟨rfl, rfl⟩
      exact ⟨_, rfl, rfl⟩

theorem exists_splitFSPDS (h : args.length = 13) : ∃ x, splitFSPDS args = some x :=
  match args, h with
  | [_, _, _, _, _, _, _, _, _, _, _, _, _], _ => ⟨_, rfl⟩

theorem exists_splitFSPD (h : args.length = 14) : ∃ x, splitFSPD args = some x := by
  obtain ⟨ch, rest, rfl⟩ := List.exists_cons_of_length_eq_add_one h
  obtain ⟨x, hx⟩ := exists_splitFSPDS (Nat.succ.inj h)
  exact ⟨(ch, x), by rw [splitFSPD, hx, Option.map_some]⟩

/-! ## The operands of an opcode -/

/-- The operand bytes that an opcode reads as a command are what stands behind the opcode in the command's frame. -/
theorem encode_of_decodeOperands {op : Opcode} {i : Instr} (h : decodeOperands nOut args op = some i) :
    i.wellFormed nOut = true ∧ encode i = opcodeByte op :: args := by
  cases op <;> obtain ⟨x, hx, rfl⟩ := Option.map_eq_some_iff.1 h
  case readPwm | readTach => cases splitFC_eq_some.1 hx; exact ⟨rfl, rfl⟩
  case readPwms | disableOutputs | readTachs => cases splitF0_eq_some.1 hx; exact ⟨rfl, rfl⟩
  case setPwm => cases splitFCV_eq_some.1 hx; exact ⟨rfl, rfl⟩
  case setPwms =>
    obtain ⟨rfl, hlen⟩ := splitFV_eq_some.1 hx
    exact ⟨beq_iff_eq.2 hlen, rfl⟩
  case readSpeed => cases splitFSPD_eq_some.1 hx; exact ⟨rfl, rfl⟩
  case readSpeeds => cases splitFSPDS_eq_some.1 hx; exact ⟨rfl, rfl⟩

/-- The opcode of a well-formed command's row reads it back from what stands behind the opcode in its frame. -/
theorem decodeOperands_encode {i : Instr} (h : i.wellFormed nOut = true) :
    decodeOperands nOut (encode i).tail (opcodeOfInstr i) = some i := by
  cases i with
  | readPwm | readPwms | setPwm | disableOutputs | readTach | readTachs => rfl
  | setPwms v => exact congrArg (Option.map _) (splitFV_eq_some.2 ⟨rfl, beq_iff_eq.1 h⟩)
  | readSpeed ch unit tpr dia =>
    have hx : splitFSPD (encode (.readSpeed ch unit tpr dia)).tail = some (ch, unit, tpr, dia) :=
      splitFSPD_eq_some.2 rfl
    simp only [opcodeOfInstr, decodeOperands, hx, Option.map_some]
  | readSpeeds unit tpr dia =>
    have hx : splitFSPDS (encode (.readSpeeds unit tpr dia)).tail = some (unit, tpr, dia) :=
      splitFSPDS_eq_some.2 rfl
    simp only [opcodeOfInstr, decodeOperands, hx, Option.map_some]

/-- Operand bytes of the number that the opcode fixes are operands, whatever their values (30_encoding.md R105). -/
theorem exists_decodeOperands {op : Opcode} (h : 1 + args.length = opcodeLength nOut op) :
    ∃ i, decodeOperands nOut args op = some i := by
  have hlen : args.length = opcodeLength nOut op - 1 := by omega
  cases op with
  | readPwm | readTach =>
    obtain ⟨ch, rfl⟩ := List.length_eq_one_iff.1 hlen
    exact ⟨_, rfl⟩
  | readPwms | disableOutputs | readTachs =>
    cases List.length_eq_zero_iff.1 hlen
    exact ⟨_, rfl⟩
  | setPwm =>
    obtain ⟨ch, v, rfl⟩ := List.length_eq_two.1 hlen
    exact ⟨_, rfl⟩
  | setPwms => exact ⟨_, congrArg (Option.map _) (splitFV_eq_some.2 ⟨rfl, Nat.add_left_cancel h⟩)⟩
  | readSpeed =>
    obtain ⟨x, hx⟩ := exists_splitFSPD hlen
    exact ⟨_, congrArg (Option.map _) hx⟩
  | readSpeeds =>
    obtain ⟨x, hx⟩ := exists_splitFSPDS hlen
    exact ⟨_, congrArg (Option.map _) hx⟩

end

/-! ## The opcode map -/

theorem opcodeOf_eq_some {b : Byte} {op : Opcode} : opcodeOf b = some op ↔ b = opcodeByte op := by
  constructor
  · intro h
    unfold opcodeOf at h
    repeat' split at h
    all_goals cases h
    all_goals assumption
  · rintro rfl
    cases op <;> rfl

theorem encode_eq_cons (i : Instr) : encode i = opcodeByte (opcodeOfInstr i) :: (encode i).tail := by
  cases i <;> rfl

/-- The length of a well-formed command's frame is the one that its row fixes (30_encoding.md R99). -/
theorem length_encode {nOut : Nat} {i : Instr} (h : i.wellFormed nOut = true) :
    (encode i).length = opcodeLength nOut (opcodeOfInstr i) := by
  cases i with
  | setPwms v => exact (Laws.EncodedLength.setPwms v nOut h).2
  | readPwm | readPwms | setPwm | disableOutputs | readTach | readTachs | readSpeed | readSpeeds => rfl

/-- The rows of the opcode map, each with its byte 0 and its frame length (30_encoding.md R99, R100). -/
def opcodeRows (nOut : Nat) : List (Byte × Nat) :=
  [.readPwm, .readPwms, .setPwm, .setPwms, .disableOutputs, .readTach, .readTachs, .readSpeed, .readSpeeds].map
    fun op => (opcodeByte op, opcodeLength nOut op)

theorem mem_opcodeRows {nOut : Nat} {row : Byte × Nat} :
    row ∈ opcodeRows nOut ↔ ∃ op, row = (opcodeByte op, opcodeLength nOut op) := by
  constructor
  · intro h
    obtain ⟨op, -, rfl⟩ := List.mem_map.1 h
    exact ⟨op, rfl⟩
  · rintro ⟨op, rfl⟩
    exact List.mem_map.2 ⟨op, by cases op <;> decide, rfl⟩

/-! ## The decoder -/

section
variable {nOut : Nat} {f : Frame} {i : Instr}

theorem decode_eq_ok_iff_operands :
    decode nOut f = .ok i ↔ ∃ op args, f = opcodeByte op :: args ∧ decodeOperands nOut args op = some i := by
  constructor
  · intro h
    unfold decode at h
    repeat' split at h
    all_goals cases h
    exact ⟨_, _, congrArg (· :: _) (opcodeOf_eq_some.1 ‹_›), ‹_›⟩
  · rintro ⟨op, args, rfl, h⟩
    simp only [decode, opcodeOf_eq_some.2 rfl, h]

/-- The decoder reads exactly the well-formed commands, each from its own frame (30_encoding.md R106). -/
theorem decode_eq_ok_iff : decode nOut f = .ok i ↔ i.wellFormed nOut = true ∧ encode i = f := by
  rw [decode_eq_ok_iff_operands]
  constructor
  · rintro ⟨op, args, rfl, h⟩
    exact encode_of_decodeOperands h
  · rintro ⟨h, rfl⟩
    exact ⟨opcodeOfInstr i, (encode i).tail, encode_eq_cons i, decodeOperands_encode h⟩

/-- Some command is read from a frame exactly when a row of the opcode map has its byte 0 and its length. -/
theorem exists_decode_eq_ok_iff :
    (∃ i, decode nOut f = .ok i) ↔ ∃ row ∈ opcodeRows nOut, f.head? = some row.1 ∧ f.length = row.2 := by
  constructor
  · rintro ⟨i, h⟩
    obtain ⟨hw, rfl⟩ := decode_eq_ok_iff.1 h
    refine ⟨_, mem_opcodeRows.2 ⟨opcodeOfInstr i, rfl⟩, ?_, length_encode hw⟩
    rw [encode_eq_cons]
    rfl
  · rintro ⟨_, hrow, hhead, hlen⟩
    obtain ⟨op, rfl⟩ := mem_opcodeRows.1 hrow
    obtain ⟨args, rfl⟩ := List.head?_eq_some_iff.1 hhead
    obtain ⟨i, hi⟩ := exists_decodeOperands ((Nat.add_comm 1 _).trans hlen)
    exact ⟨i, decode_eq_ok_iff_operands.2 ⟨op, args, rfl, hi⟩⟩

theorem exists_decode_eq_error_iff : (∃ e, decode nOut f = .error e) ↔ ¬ ∃ i, decode nOut f = .ok i := by
  cases decode nOut f <;> simp

end

/-- Settles O1: one direction of what the decoder reads. -/
theorem decodeInvertsEncode : Obligations.DecodeInvertsEncode :=
  fun _ _ h => decode_eq_ok_iff.2 ⟨h, rfl⟩

/-- Settles O2: the other direction of what the decoder reads. -/
theorem encodeInvertsDecode : Obligations.EncodeInvertsDecode :=
  fun _ _ _ h => decode_eq_ok_iff.1 h

/-- Settles O3: the rows written out there are those of the opcode map, and a frame that is not rejected is read. -/
theorem illegalExactlyOffTheOpcodeMap : Obligations.IllegalExactlyOffTheOpcodeMap :=
  fun _ _ => exists_decode_eq_error_iff.trans (not_congr exists_decode_eq_ok_iff)

/-- Settles O4: the frames are the encodings of the commands. -/
theorem sampleFramesDecode : Obligations.SampleFramesDecode :=
  ⟨decode_eq_ok_iff.2 (by decide), decode_eq_ok_iff.2 (by decide), decode_eq_ok_iff.2 (by decide),
    decode_eq_ok_iff.2 (by decide), decode_eq_ok_iff.2 (by decide)⟩

end Sys2Proof

namespace Sys2Proof.Machine

/-! ## Frames given as words -/

theorem decodeTableWord_eq_some {nbits w : Nat} {i : Instr} :
    decodeTableWord nbits w = some i ↔ decode Config.t0.nOut (frameOfWord Config.t0.nOut nbits w) = .ok i := by
  unfold decodeTableWord
  cases decode Config.t0.nOut (frameOfWord Config.t0.nOut nbits w) <;> simp

/-- Settles O8: the word's frame is the host's next frame, and a step runs the command that this frame decodes to. -/
theorem fetchedWordRuns : Obligations.FetchedWordRuns := by
  intro s nbits w i hc hn h
  have hdecode : decode s.cfg.nOut (frameOfWord s.cfg.nOut nbits w) = .ok i := by
    rw [hn]
    exact decodeTableWord_eq_some.1 h
  exact stepRunsTheDecodedCommand (s.withFetchWord nbits w) _ s.host i hc rfl rfl hdecode

/-! ## Responses -/

/-- A status other than OK comes without payload (30_encoding.md R101). -/
theorem responseFits_of_ne_ok (i : Instr) {st : Status} (h : st ≠ .ok) : responseFits i [statusByte st] := by
  cases st with
  | ok => exact absurd rfl h
  | busError => exact .inr ⟨.inl rfl, rfl⟩
  | inputError => exact .inr ⟨.inr (.inl rfl), rfl⟩
  | illegal => exact .inr ⟨.inr (.inr rfl), rfl⟩

/-- A command that writes output channels has no payload (30_encoding.md R102). -/
theorem okPayloadLength_of_write {c : Config} {i : Instr} {a : Nat} {raws : List Nat}
    (h : transactionOf c i = some (.write a raws)) : okPayloadLength i = 0 := by
  obtain ⟨-, -, ht⟩ := transactionOf_eq_some.1 h
  cases i with
  | setPwm | setPwms | disableOutputs => rfl
  | readPwm | readPwms | readTach | readTachs | readSpeed | readSpeeds => cases ht

/-- Settles O24: each way in which a command can end appends its one response. -/
theorem commandEndsWithOneResponse : Obligations.CommandEndsWithOneResponse := by
  intro i s t h
  obtain ⟨⟨-, hp⟩, ⟨-, st, hst, rfl⟩ | ⟨x, -, -, rfl⟩ | ⟨a, n, rest, -, -, rfl⟩ | ⟨a, n, vs, rest, hx, -, hl, -, ht⟩ |
    ⟨a, raws, rest, -, -, rfl⟩ | ⟨a, raws, rest, hx, -, rfl⟩⟩ := exec_eq_next h
  · exact .inr ⟨hp, _, rfl, responseFits_of_ne_ok i (by rcases hst with rfl | rfl <;> nofun)⟩
  · exact .inl ⟨rfl, rfl⟩
  · exact .inr ⟨hp, _, rfl, responseFits_of_ne_ok i nofun⟩
  · obtain ⟨payload, hlen, heq⟩ := afterRead_eq_next (u := answered (.read a n) (.values vs) rest s) hx hl ht
    rw [heq]
    exact .inr ⟨hp, _, rfl, .inl ⟨rfl, hlen⟩⟩
  · exact .inr ⟨hp, _, rfl, responseFits_of_ne_ok i nofun⟩
  · exact .inr ⟨hp, _, rfl, .inl ⟨rfl, (okPayloadLength_of_write hx).symm⟩⟩

/-- Settles O41: such a term is not well formed. -/
theorem setPwmsOfAnotherLengthIsIllegal : Obligations.SetPwmsOfAnotherLengthIsIllegal :=
  fun _ _ hs hlen => exec_of_illFormed hs (beq_eq_false_iff_ne.2 hlen)

/-! ## Assembler text -/

/-- Every command but SET_PWMS is well formed for every number of output channels. -/
theorem wellFormed_iff {nOut : Nat} {i : Instr} :
    i.wellFormed nOut = true ↔ ∀ v, i = .setPwms v → v.length = nOut := by
  cases i <;> simp [Instr.wellFormed]

theorem tokensOf_replicate {α : Type} {f : List Char → Option α} {t : List Char} {x : α} (h : f t = some x) (n : Nat) :
    tokensOf f (List.replicate n t) = some (List.replicate n x) := by
  induction n with
  | zero => rfl
  | succ n ih => simp only [List.replicate_succ, tokensOf, h, ih]

theorem controlOf_zero : controlOf ['0'] = some 0 := by decide

/-- Settles O57: READ_RPM and RELEASE_ALL are their expansions outright; the tokens `0` of the other two read as the
control 0. -/
theorem pseudoCommandsExpand : Obligations.PseudoCommandsExpand := by
  intro c t
  refine ⟨rfl, ?neutral, ?neutralAll, rfl⟩
  case neutral =>
    simp only [assemble, controlOf_zero]
    cases channelOf c .output t <;> rfl
  case neutralAll =>
    simp only [assemble, tokensOf_replicate controlOf_zero, List.length_replicate, if_true, pseudoNeutralAll]

/-- Only SET_PWMS and NEUTRAL_ALL spell a SET_PWMS, with one operand per output channel (30_encoding.md R107, R108). -/
theorem length_of_assemble_setPwms {c : Config} {m : String} {ts : List (List Char)} {v : List (BitVec 8)}
    (h : assemble c m ts = some (.setPwms v)) : v.length = c.nOut := by
  unfold assemble at h
  split at h
  case h_4 => -- SET_PWMS, whose operands are counted
    split at h
    · split at h
      · cases h
        assumption
      · cases h
    · cases h
  case h_12 => -- NEUTRAL_ALL, one zero per output channel
    cases h
    exact List.length_replicate
  case h_1 | h_6 | h_10 | h_11 => -- one channel operand
    obtain ⟨k, -, hk⟩ := Option.map_eq_some_iff.1 h
    cases hk
  case h_3 | h_8 | h_9 => split at h <;> cases h -- several operands
  all_goals cases h

/-- Settles O58: an assembled SET_PWMS has one operand per output channel, and a well-formed command decodes from its
frame. -/
theorem assembledCommandsDecode : Obligations.AssembledCommandsDecode := by
  intro c line i h
  have hw : i.wellFormed c.nOut = true := wellFormed_iff.2 fun v hv => length_of_assemble_setPwms (hv ▸ h)
  exact ⟨hw, decodeInvertsEncode c.nOut i hw⟩

end Sys2Proof.Machine

/-! PROOFS of the statements on 40_pwm_input.md. First what one sample decodes to, in the three cases of R124 and R125;
then READ_PWM and READ_PWMS as whole next states, from which the statements are read off. -/

namespace Sys2Proof.Machine

/-! ## One sample -/

/-- A sample that the plausibility band of 40_pwm_input.md R121 rejects. -/
abbrev BadSample (c : Config) (raw : Nat) : Prop :=
  ¬ (c.plausMin ≤ raw * c.inUsNum / c.inUsDen ∧ raw * c.inUsNum / c.inUsDen ≤ c.plausMax)

section
variable {c : Config} {m raw us : Nat} {g : Option Nat}

/-- 40_pwm_input.md R124. -/
theorem decodeSample_of_plausible (hus : us = raw * c.inUsNum / c.inUsDen) (hmin : c.plausMin ≤ us)
    (hmax : us ≤ c.plausMax) :
    decodeSample c m g raw = .ok ⟨0, some (min (max us 1000) 2000), .valid (min (max us 1000) 2000)⟩ := by
  subst hus
  rw [decodeSample_eq_ok, LaneSpec, if_pos ⟨hmin, hmax⟩]
  exact ⟨rfl, rfl, rfl⟩

/-- 40_pwm_input.md R125 past the timeout. -/
theorem decodeSample_of_timeout (hbad : BadSample c raw) (h : c.losTimeout < min (m + 1) (c.losTimeout + 1)) :
    decodeSample c m g raw = .ok ⟨min (m + 1) (c.losTimeout + 1), g, .noSignal⟩ := by
  rw [decodeSample_eq_ok, LaneSpec, if_neg hbad]
  exact ⟨rfl, rfl, by rw [if_pos h]⟩

/-- 40_pwm_input.md R125 within the timeout. -/
theorem decodeSample_of_held {w : Nat} (hbad : BadSample c raw) (h : min (m + 1) (c.losTimeout + 1) ≤ c.losTimeout) :
    decodeSample c m (some w) raw = .ok ⟨min (m + 1) (c.losTimeout + 1), some w, .valid w⟩ := by
  rw [decodeSample_eq_ok, LaneSpec, if_neg hbad]
  exact ⟨rfl, rfl, by rw [if_neg (Nat.not_lt.2 h)]; exact ⟨w, rfl, rfl⟩⟩

end

/-! ## READ_PWM -/

/-- The state after READ_PWM of channel `k` got the value `raw`, which decoded to `r`. -/
def sampleRead (k : Fin nIn) (raw : Nat) (r : Sampled) (rest : List BridgeAnswer) (s : State) : State :=
  respond .ok (signalRecord r.signal)
    (setChannel k r (answered (.read (s.cfg.addrInBase + k.val) 1) (.values [raw]) rest s))

section
variable (k : Fin nIn) (raw : Nat) (r : Sampled) (rest : List BridgeAnswer) (s : State)

@[simp] theorem sampleRead_cfg : (sampleRead k raw r rest s).cfg = s.cfg := rfl
@[simp] theorem sampleRead_miss : (sampleRead k raw r rest s).miss = s.miss.set k r.miss := rfl
@[simp] theorem sampleRead_lastGood : (sampleRead k raw r rest s).lastGood = s.lastGood.set k r.lastGood := rfl
@[simp] theorem sampleRead_responses :
    (sampleRead k raw r rest s).responses = s.responses ++ [0x00 :: signalRecord r.signal] := rfl

/-- The whole next state, field by field. -/
theorem sampleRead_eq : sampleRead k raw r rest s = { s with
    miss := s.miss.set k r.miss
    lastGood := s.lastGood.set k r.lastGood
    bridge := rest
    bus := s.bus ++ [⟨.read (s.cfg.addrInBase + k.val) 1, .values [raw]⟩]
    responses := s.responses ++ [0x00 :: signalRecord r.signal] } := rfl

end

/-- READ_PWM on a sample that decodes (40_pwm_input.md R127). -/
theorem exec_readPwm_of_decodeSample {ch : Byte} {k : Fin nIn} (hk : ch.toNat = k.val) {s : State} {raw : Nat}
    {rest : List BridgeAnswer} {r : Sampled} (hs : Ready s) (hb : s.bridge = .values [raw] :: rest)
    (hraw : raw < 2 ^ s.cfg.rawW) (hr : decodeSample s.cfg s.miss[k.val] s.lastGood[k.val] raw = .ok r) :
    exec (.readPwm ch) s = .next (sampleRead k raw r rest s) := by
  obtain ⟨_, hch⟩ := k
  subst hk
  rw [exec_readPwm_values hch hs hb hraw, respondDecoded_ok (decodeChannels_single (s := answered _ _ _ s) hr)]
  simp [sampleRead]

/-- Settles O29: the sample decodes by R124. -/
theorem readPwmValidSample : Obligations.ReadPwmValidSample := by
  intro ch hch s raw us w rest hs hb hraw hus hmin hmax hw
  have hr := decodeSample_of_plausible (m := s.miss[ch.toNat]) (g := s.lastGood[ch.toNat]) hus hmin hmax
  rw [exec_readPwm_of_decodeSample (k := ⟨ch.toNat, hch⟩) rfl hs hb hraw hr, sampleRead_eq, signalRecord_valid, ← hw]
  rfl

/-- Settles O30: the sample decodes by R125 on either side of the timeout, and writing the last-good value back changes
nothing. -/
theorem readPwmBadSample : Obligations.ReadPwmBadSample := by
  intro ch hch s raw us m rest hs hb hraw hus hbad hm
  subst hus hm
  constructor
  · intro hlate
    have hr := decodeSample_of_timeout (g := s.lastGood[ch.toNat]) hbad hlate
    rw [exec_readPwm_of_decodeSample (k := ⟨ch.toNat, hch⟩) rfl hs hb hraw hr, sampleRead_eq, Vector.set_getElem_self]
    rfl
  · intro w0 hheld hgood
    have hr := decodeSample_of_held (w := w0) hbad hheld
    rw [← hgood] at hr
    rw [exec_readPwm_of_decodeSample (k := ⟨ch.toNat, hch⟩) rfl hs hb hraw hr, sampleRead_eq, Vector.set_getElem_self,
      signalRecord_valid]
    rfl

/-! ## Failed reads -/

/-- Settles O26: every reading command is one read, which a failed answer ends. -/
theorem readBusErrorWritesNoState : Obligations.ReadBusErrorWritesNoState := by
  intro i s a n rest hs hx hb
  rw [exec_of_read hs hx, readBridge_busError hb]
  rfl

/-! ## READ_PWMS -/

/-- The channels `l` get the samples' results `r`, each channel its own. -/
def setChannels (r : Fin nIn → Sampled) (l : List (Fin nIn)) (s : State) : State :=
  l.foldl (fun u k => setChannel k (r k) u) s

/-- Samples of distinct channels decode independently of each other (40_pwm_input.md R128). -/
theorem decodeChannels_of_nodup {l : List (Fin nIn)} (hl : l.Nodup) {raw : Fin nIn → Nat} {r : Fin nIn → Sampled}
    {s : State} (hr : ∀ k ∈ l, decodeSample s.cfg s.miss[k.val] s.lastGood[k.val] (raw k) = .ok (r k)) :
    decodeChannels (l.map fun k => (k, raw k)) s = .ok (l.map fun k => (r k).signal, setChannels r l s) := by
  induction l generalizing s with
  | nil => rfl
  | cons k l ih =>
    obtain ⟨hk, hl⟩ := List.nodup_cons.1 hl
    have hhead := hr k List.mem_cons_self
    have htail := ih hl (s := setChannel k (r k) s) fun j hj => by
      have hne : k.val ≠ j.val := fun he => hk (Fin.ext he ▸ hj)
      simpa [hne] using hr j (List.mem_cons_of_mem _ hj)
    simp only [List.map_cons, decodeChannels, hhead, htail]
    rfl

theorem foldl_set_getElem {α : Type} (f : Fin nIn → α) (l : List (Fin nIn)) (v : Vector α nIn) (k : Fin nIn) :
    (l.foldl (fun u j => u.set j.val (f j)) v)[k.val] = if k ∈ l then f k else v[k.val] := by
  induction l generalizing v with
  | nil => rfl
  | cons j l ih =>
    rw [List.foldl_cons, ih]
    by_cases hkl : k ∈ l
    · simp [hkl]
    · by_cases hkj : k = j
      · simp [hkj]
      · simp [hkl, hkj, Vector.getElem_set_ne, Fin.val_ne_of_ne (Ne.symm hkj)]

theorem foldl_set_inChannels {α : Type} (f : Fin nIn → α) (v : Vector α nIn) :
    inChannels.foldl (fun u j => u.set j.val (f j)) v = Vector.ofFn f := by
  refine Vector.ext fun k hk => ?_
  have hmem : ∀ j : Fin nIn, j ∈ inChannels := by decide
  rw [foldl_set_getElem f inChannels v ⟨k, hk⟩, if_pos (hmem _), Vector.getElem_ofFn]

/-- Results for every channel replace both arrays. -/
theorem setChannels_inChannels (r : Fin nIn → Sampled) (s : State) :
    setChannels r inChannels s =
      { s with miss := Vector.ofFn fun k => (r k).miss, lastGood := Vector.ofFn fun k => (r k).lastGood } := by
  rw [← foldl_set_inChannels _ s.miss, ← foldl_set_inChannels _ s.lastGood]
  rfl

theorem toList_ofFn_inChannels {α : Type} (f : Fin nIn → α) : (Vector.ofFn f).toList = inChannels.map f := by
  rw [Vector.toList_ofFn, List.ofFn_eq_map]
  rfl

/-- The state after READ_PWMS got the values `raw`, one a channel, which decoded to `r`. -/
def samplesRead (raw : Fin nIn → Nat) (r : Fin nIn → Sampled) (rest : List BridgeAnswer) (s : State) : State :=
  respond .ok ((inChannels.map fun k => (r k).signal).flatMap signalRecord)
    (setChannels r inChannels (answered (.read s.cfg.addrInBase nIn) (.values (inChannels.map raw)) rest s))

/-- READ_PWMS on samples that decode (40_pwm_input.md R128). -/
theorem exec_readPwms_of_decodeSample {s : State} {raw : Fin nIn → Nat} {rest : List BridgeAnswer}
    {r : Fin nIn → Sampled} (hs : Ready s) (hb : s.bridge = .values (inChannels.map raw) :: rest)
    (hraw : ∀ k, raw k < 2 ^ s.cfg.rawW)
    (hr : ∀ k : Fin nIn, decodeSample s.cfg s.miss[k.val] s.lastGood[k.val] (raw k) = .ok (r k)) :
    exec .readPwms s = .next (samplesRead raw r rest s) := by
  have hx : transactionOf s.cfg .readPwms = some (.read s.cfg.addrInBase nIn) := rfl
  have hvals : ∀ v ∈ inChannels.map raw, v < 2 ^ s.cfg.rawW := by simpa using fun k _ => hraw k
  rw [exec_of_read hs hx, readBridge_values hb (n := nIn) rfl hvals]
  refine respondDecoded_ok ?_
  rw [← List.map_prod_left_eq_zip]
  exact decodeChannels_of_nodup (by decide) fun k _ => hr k

/-- Settles O32: within the channels' bounds every sample decodes, by its own lane's rule. -/
theorem readPwmsDecodesEveryLane : Obligations.ReadPwmsDecodesEveryLane := by
  rintro s raws rest hs ⟨hin, -⟩ hb hraw
  choose r hr using fun k : Fin nIn => (hin k).exists_decodeSample raws[k.val]
  have hlist : raws.toList = inChannels.map fun k => raws[k.val] := by
    rw [← toList_ofFn_inChannels]
    congr
    exact Vector.ext fun k hk => by simp
  rw [hlist] at hb ⊢
  refine ⟨Vector.ofFn fun k => (r k).miss, Vector.ofFn fun k => (r k).lastGood, Vector.ofFn fun k => (r k).signal, ?_,
    fun k => ?_⟩
  · rw [exec_readPwms_of_decodeSample hs hb hraw hr, samplesRead, setChannels_inChannels, toList_ofFn_inChannels]
    rfl
  · simpa using (decodeSample_eq_ok ..).1 (hr k)

/-- READ_PWM 0, 1, 2, 3 in sequence on samples that decode: each leaves the channels still to be read as they were, so all
decode as from the first state. -/
theorem exec_readPwm_sequence {s : State} {raw : Fin nIn → Nat} {rest : List BridgeAnswer} {r : Fin nIn → Sampled}
    (hs : Ready s)
    (hb : s.bridge = .values [raw 0] :: .values [raw 1] :: .values [raw 2] :: .values [raw 3] :: rest)
    (hraw : ∀ k, raw k < 2 ^ s.cfg.rawW)
    (hr : ∀ k : Fin nIn, decodeSample s.cfg s.miss[k.val] s.lastGood[k.val] (raw k) = .ok (r k)) :
    ∃ u0 u1 u2 u3 : State, exec (.readPwm 0) s = .next u0 ∧ exec (.readPwm 1) u0 = .next u1
      ∧ exec (.readPwm 2) u1 = .next u2 ∧ exec (.readPwm 3) u2 = .next u3
      ∧ u3.miss = (setChannels r inChannels s).miss ∧ u3.lastGood = (setChannels r inChannels s).lastGood
      ∧ u3.out = s.out
      ∧ u3.responses = s.responses ++ inChannels.map fun k => 0x00 :: signalRecord (r k).signal := by
  let u0 := sampleRead 0 (raw 0) (r 0) (.values [raw 1] :: .values [raw 2] :: .values [raw 3] :: rest) s
  let u1 := sampleRead 1 (raw 1) (r 1) (.values [raw 2] :: .values [raw 3] :: rest) u0
  let u2 := sampleRead 2 (raw 2) (r 2) (.values [raw 3] :: rest) u1
  refine ⟨u0, u1, u2, sampleRead 3 (raw 3) (r 3) rest u2,
    exec_readPwm_of_decodeSample (ch := 0) rfl hs hb (hraw 0) (hr 0),
    exec_readPwm_of_decodeSample (ch := 1) (s := u0) rfl hs rfl (hraw 1) ?_,
    exec_readPwm_of_decodeSample (ch := 2) (s := u1) rfl hs rfl (hraw 2) ?_,
    exec_readPwm_of_decodeSample (ch := 3) (s := u2) rfl hs rfl (hraw 3) ?_, rfl, rfl, rfl, ?_⟩
  · simpa [u0] using hr 1
  · simpa [u0, u1, nIn] using hr 2
  · simpa [u0, u1, u2, nIn] using hr 3
  · simp [u0, u1, u2, inChannels]

/-- Settles O33: both ways decode each value on its own channel, from the same counters and last-good values. -/
theorem batchReadEqualsFourReads : Obligations.BatchReadEqualsFourReads := by
  rintro s a b c d rest hs ⟨hin, -⟩ ha hb hc hd
  have hraw : ∀ k : Fin nIn, ![a, b, c, d] k < 2 ^ s.cfg.rawW := by
    simpa [Fin.forall_fin_succ] using ⟨ha, hb, hc, hd⟩
  choose r hr using fun k : Fin nIn => (hin k).exists_decodeSample (![a, b, c, d] k)
  have hbatch := exec_readPwms_of_decodeSample
    (s := { s with bridge := .values [a, b, c, d] :: rest }) hs rfl hraw hr
  obtain ⟨u0, u1, u2, u3, h0, h1, h2, h3, hmiss, hgood, hout, hresp⟩ := exec_readPwm_sequence
    (s := { s with bridge := .values [a] :: .values [b] :: .values [c] :: .values [d] :: rest }) hs rfl hraw hr
  refine ⟨_, u0, u1, u2, u3, signalRecord (r 0).signal, signalRecord (r 1).signal, signalRecord (r 2).signal,
    signalRecord (r 3).signal, hbatch, h0, h1, h2, h3, hmiss.symm, hgood.symm, hout.symm, hresp, ?_⟩
  simp [samplesRead, inChannels, setChannels, statusByte]

/-! ## Consecutive bad samples -/

/-- What `n` consecutive bad samples leave of a channel that was live with the last-good value `w`, and what the last of
them returns (40_pwm_input.md R125, 70_reset_and_hazards.md R261). -/
def afterBadSamples (c : Config) (w n : Nat) : Sampled :=
  ⟨min n (c.losTimeout + 1), some w, if n ≤ c.losTimeout then .valid w else .noSignal⟩

theorem decodeSample_afterBadSamples {c : Config} {raw : Nat} (hbad : BadSample c raw) (w n : Nat) :
    decodeSample c (afterBadSamples c w n).miss (some w) raw = .ok (afterBadSamples c w (n + 1)) := by
  have hsat : min (min n (c.losTimeout + 1) + 1) (c.losTimeout + 1) = min (n + 1) (c.losTimeout + 1) := by omega
  by_cases h : n + 1 ≤ c.losTimeout
  · refine (decodeSample_of_held hbad (by simp only [afterBadSamples]; omega)).trans ?_
    simp [afterBadSamples, hsat, h]
  · refine (decodeSample_of_timeout hbad (by simp only [afterBadSamples]; omega)).trans ?_
    simp [afterBadSamples, hsat, h]

/-- One step that runs READ_PWM on a sample that decodes. -/
theorem step_readPwm_of_decodeSample {k : Fin nIn} {ch : Byte} (hk : ch.toNat = k.val) {s : State} {raw : Nat}
    {frames : List Frame} {rest : List BridgeAnswer} {r : Sampled} (hs : Ready s) (hh : s.host = [0x10, ch] :: frames)
    (hb : s.bridge = .values [raw] :: rest) (hraw : raw < 2 ^ s.cfg.rawW)
    (hr : decodeSample s.cfg s.miss[k.val] s.lastGood[k.val] raw = .ok r) :
    step s = .next (sampleRead k raw r rest (frameTaken frames s)) := by
  have hdecode : decode s.cfg.nOut [0x10, ch] = .ok (.readPwm ch) := decode_eq_ok_iff.2 ⟨rfl, rfl⟩
  rw [step_of_fetch_command (fetch_of_decode hs.1 hs.2 hh hdecode)]
  exact exec_readPwm_of_decodeSample hk (s := frameTaken frames s) hs hb hraw hr

/-- A run of bad samples on a channel that has had `n` bad samples since its last good one. -/
theorem runSteps_badSamples {k : Fin nIn} {ch : Byte} (hk : ch.toNat = k.val) {w : Nat} (more : List Frame)
    (rest : List BridgeAnswer) (raws : List Nat) {s : State} (n : Nat) (hs : Ready s)
    (hmiss : s.miss[k.val] = (afterBadSamples s.cfg w n).miss) (hgood : s.lastGood[k.val] = some w)
    (hbad : ∀ raw ∈ raws, raw < 2 ^ s.cfg.rawW ∧ BadSample s.cfg raw)
    (hh : s.host = List.replicate raws.length [0x10, ch] ++ more)
    (hb : s.bridge = raws.map (fun raw => .values [raw]) ++ rest) :
    ∃ t, runSteps raws.length s = .next t
      ∧ t.miss[k.val] = (afterBadSamples s.cfg w (n + raws.length)).miss
      ∧ t.lastGood = s.lastGood
      ∧ t.responses = s.responses ++ (List.range raws.length).map fun j =>
          0x00 :: signalRecord (afterBadSamples s.cfg w (n + j + 1)).signal := by
  induction raws generalizing s n with
  | nil => exact ⟨s, rfl, hmiss, rfl, by simp⟩
  | cons raw raws ih =>
    obtain ⟨hraw, hrawBad⟩ := hbad raw List.mem_cons_self
    have hr : decodeSample s.cfg s.miss[k.val] s.lastGood[k.val] raw = .ok (afterBadSamples s.cfg w (n + 1)) := by
      rw [hmiss, hgood]
      exact decodeSample_afterBadSamples hrawBad w n
    have hstep := step_readPwm_of_decodeSample hk hs hh hb hraw hr
    have hkeep : s.lastGood.set k.val (some w) = s.lastGood := by simp [← hgood]
    obtain ⟨t, hrun, htmiss, htgood, htresp⟩ :=
      ih (s := sampleRead k raw (afterBadSamples s.cfg w (n + 1)) (raws.map (fun raw => .values [raw]) ++ rest)
          (frameTaken (List.replicate raws.length [0x10, ch] ++ more) s))
        (n + 1) hs (by simp) (by simp [afterBadSamples]) (fun x hx => hbad x (List.mem_cons_of_mem _ hx)) rfl rfl
    refine ⟨t, (runSteps_succ hstep).trans hrun, ?_, htgood.trans hkeep, ?_⟩
    · rw [htmiss, List.length_cons, Nat.add_right_comm, Nat.add_assoc]
      rfl
    · rw [htresp, List.length_cons, List.range_succ_eq_map]
      simp [Nat.add_assoc, Nat.add_comm 1, Function.comp_def]

/-- Settles O35: a live channel has had no bad sample since its last good one. -/
theorem noSignalAfterTheTimeout : Obligations.NoSignalAfterTheTimeout := by
  intro ch hch s w raws more rest hs hmiss hgood hbad hh hb
  obtain ⟨t, hrun, htmiss, htgood, htresp⟩ :=
    runSteps_badSamples (k := ⟨ch.toNat, hch⟩) rfl more rest raws 0 hs (by simp [hmiss, afterBadSamples]) hgood hbad
      hh hb
  refine ⟨t, hrun, ?_, htgood, ?_⟩
  · simpa [afterBadSamples] using htmiss
  · rw [htresp]
    congr 2
    funext j
    by_cases hj : j < s.cfg.losTimeout <;> simp [afterBadSamples, hj]

/-! ## The normaliser and the loopback -/

/-- Settles O36: floor division by 125 is monotone. -/
theorem normalizerIsMonotone : Obligations.NormalizerIsMonotone := by
  refine ⟨fun a b hab => ?_, by decide⟩
  exact Int.ediv_le_ediv (by decide) (by omega)

/-- NORM undoes the affine map up to the fraction that the map's floor drops (40_pwm_input.md R133). -/
theorem normControl_affineWidth (v : BitVec 8) :
    (normControl (affineWidth v) = v.toInt ∨ normControl (affineWidth v) = v.toInt - 1)
    ∧ (normControl (affineWidth v) = v.toInt ↔ (32 : Int) ∣ 125 * v.toInt) := by
  have hlow := v.le_toInt
  have hhigh := v.toInt_lt
  unfold normControl affineWidth
  omega

/-- SET_PWM answered `Ok` (41_pwm_output.md R153). -/
theorem exec_setPwm_ok {ch : Byte} {v : BitVec 8} {s : State} {rest : List BridgeAnswer} (hs : Ready s)
    (hch : ch.toNat < s.cfg.nOut) (hb : s.bridge = .ok :: rest) :
    exec (.setPwm ch v) s = .next (respond .ok [] (setOut ch.toNat [.driving (pw v)]
      (answered (.write (s.cfg.addrOutBase + ch.toNat) [affineRaw s.cfg v]) .ok rest s))) := by
  have hx : transactionOf s.cfg (.setPwm ch v) =
      some (.write (s.cfg.addrOutBase + ch.toNat) [affineRaw s.cfg v]) :=
    transactionOf_eq_some.2 ⟨rfl, decide_eq_false (Nat.not_le.2 hch), rfl⟩
  rw [exec_of_write hs hx]
  exact writeOutputs_ok hb ..

/-- With equal tick ratios the programmed raw value is the width in microseconds. -/
theorem affineRaw_of_unit_ratio {c : Config} (hc : ConfigOk c) (h : c.outTickNum = c.outTickDen) (v : BitVec 8) :
    affineRaw c v = affineWidth v ∧ affineWidth v < 2 ^ c.rawW := by
  obtain ⟨-, ⟨-, -, -, hden⟩, ⟨-, hfit⟩, -⟩ := configRules hc
  have hwidth := affineWidth_bounds v
  rw [h, Nat.mul_div_cancel _ hden] at hfit
  rw [affineRaw, h, Nat.mul_div_cancel _ hden]
  omega

/-- Settles O37: SET_PWM leaves the decoder and the answer to the read alone, the programmed width lies in the band and
in the domain that R124 clamps to, and NORM is applied to it. -/
theorem loopbackRecoversTheControl : Obligations.LoopbackRecoversTheControl := by
  intro s v k i hi rest hs hin hout hmin hmax hk hb
  obtain ⟨hraw, hfit⟩ := affineRaw_of_unit_ratio hs.1 hout v
  obtain ⟨hlow, hhigh⟩ := affineWidth_bounds v
  obtain ⟨-, ⟨-, hden, -⟩, -⟩ := configRules hs.1
  have hus : affineWidth v = affineRaw s.cfg v * s.cfg.inUsNum / s.cfg.inUsDen := by
    rw [hraw, hin, Nat.mul_div_cancel _ hden]
  have hclamp : min (max (affineWidth v) 1000) 2000 = affineWidth v := by omega
  have hr : ∀ m g, decodeSample s.cfg m g (affineRaw s.cfg v) =
      .ok ⟨0, some (affineWidth v), .valid (affineWidth v)⟩ := fun m g => by
    rw [decodeSample_of_plausible hus (hmin.trans hlow) (by omega), hclamp]
  refine ⟨_, _, exec_setPwm_ok hs hk hb,
    exec_readPwm_of_decodeSample (k := ⟨i.toNat, hi⟩) rfl hs rfl (hraw ▸ hfit) (hr _ _), ?_, ?_, ?_,
    normControl_affineWidth v⟩
  · simp
  · simp
  · simp [statusByte]

end Sys2Proof.Machine

/-! PROOFS of the statements on 41_pwm_output.md. First what a write that is answered `Ok` does, for every command that
writes: to the records it is an overlay, to the registers one event more. The statements are its instances, and the two
laws that a write of several values is the writes of its values one by one, and that writing twice is writing once. -/

namespace Sys2Proof.Machine

/-! ## Programmed widths -/

/-- Settles O38: a programmed width is among the widths whose raw values 00_scope.md R12 bounds. -/
theorem programmedRawIsNeverSuppressed : Obligations.ProgrammedRawIsNeverSuppressed := by
  intro c v hc
  obtain ⟨hlow, hhigh⟩ := affineWidth_bounds v
  rw [pw_eq_affineWidth]
  have hwidths : ∀ w, 1000 ≤ w → w ≤ 2000 → 1 ≤ outRaw c w ∧ outRaw c w ≤ 2 ^ c.rawW - 1 := fun _ => outRaw_bounds hc
  obtain ⟨hpos, hfit⟩ := hwidths _ hlow (by omega)
  exact ⟨rfl, hlow, hhigh, hpos, hfit, hwidths⟩

/-! ## The transaction of each writing command -/

section
variable {c : Config}

theorem transactionOf_setPwm {ch : Byte} (hch : ch.toNat < c.nOut) (v : BitVec 8) :
    transactionOf c (.setPwm ch v) = some (.write (c.addrOutBase + ch.toNat) [affineRaw c v]) :=
  transactionOf_eq_some.2 ⟨rfl, decide_eq_false (Nat.not_le.2 hch), rfl⟩

theorem transactionOf_setPwms {v : List (BitVec 8)} (hv : v.length = c.nOut) :
    transactionOf c (.setPwms v) = some (.write c.addrOutBase (v.map (affineRaw c))) :=
  transactionOf_eq_some.2 ⟨beq_iff_eq.2 hv, rfl, rfl⟩

theorem transactionOf_disableOutputs :
    transactionOf c .disableOutputs = some (.write c.addrOutBase (List.replicate c.nOut 0)) := rfl

theorem recordsWritten_setPwms (v : List (BitVec 8)) :
    recordsWritten c (.setPwms v) = v.map fun x => .driving (affineWidth x) := by
  simp only [recordsWritten, pw_eq_affineWidth]

end

/-! ## A write answered `Ok` -/

section
variable {i : Instr} {s : State} {a : Nat} {raws : List Nat} {rest : List BridgeAnswer}

theorem exec_write_ok (hs : Ready s) (hx : transactionOf s.cfg i = some (.write a raws)) (hb : s.bridge = .ok :: rest) :
    exec i s = .next (respond .ok [] (setOut (firstWritten i) (recordsWritten s.cfg i)
      (answered (.write a raws) .ok rest s))) := by
  obtain ⟨rfl, -⟩ := recordsWritten_spec hx
  rw [exec_of_write hs hx, writeOutputs_ok hb]

/-- A write from channel 0 on that covers every channel replaces the whole array. -/
theorem exec_write_all_ok (hs : Ready s) (hx : transactionOf s.cfg i = some (.write a raws))
    (hb : s.bridge = .ok :: rest) (hfirst : firstWritten i = 0)
    (hall : (recordsWritten s.cfg i).length = s.out.length) :
    exec i s = .next { s with
      out := recordsWritten s.cfg i
      bridge := rest
      bus := s.bus ++ [⟨.write a raws, .ok⟩]
      responses := s.responses ++ [[0x00]] } := by
  rw [exec_write_ok hs hx hb, hfirst, setOut, answered_out, overlay_all hall]
  rfl

/-- The register of a channel holds what the record that the write leaves of the channel says. -/
theorem regAfter_write_ok {c : Config} (hx : transactionOf c i = some (.write a raws)) {j : Nat} {o : OutState}
    (ho : (recordsWritten c i)[j]? = some o) (bus : List BusEvent) :
    regAfter (bus ++ [⟨.write a raws, .ok⟩]) (a + j) = recordedReg c o := by
  rw [regAfter_append]
  exact regStep_write_recordsAfter hx (by rwa [recordsAfter, if_pos rfl]) _

end

/-! ## Each writing command answered `Ok` -/

/-- Settles O39: an overlay with one record sets it. -/
theorem setPwmDrivesItsChannelAlone : Obligations.SetPwmDrivesItsChannelAlone := by
  intro ch v s rest hs hch hb
  rw [exec_setPwm_ok hs hch hb, pw_eq_affineWidth]
  rfl

/-- Settles O40: there is a record for every channel. -/
theorem setPwmsDrivesEveryChannel : Obligations.SetPwmsDrivesEveryChannel := by
  intro v s rest hs hout hv hb
  rw [exec_write_all_ok hs (transactionOf_setPwms hv) hb rfl (by simp [recordsWritten_setPwms, hv, hout]),
    recordsWritten_setPwms]

/-- Settles O42: `Disabled` is the record of a channel without pulses and of a register that holds 0. -/
theorem disableOutputsReleasesEveryChannel : Obligations.DisableOutputsReleasesEveryChannel := by
  intro s rest hs hout hb
  refine ⟨_, exec_write_all_ok hs transactionOf_disableOutputs hb rfl (by simp [recordsWritten, hout]), rfl,
    fun o ho => ?_, fun k hk => ?_⟩
  · rw [List.eq_of_mem_replicate ho]
    rfl
  · have hrecord : (recordsWritten s.cfg .disableOutputs)[k]? = some .disabled := by simp [recordsWritten, hk]
    exact regAfter_write_ok transactionOf_disableOutputs hrecord s.bus

/-- Settles O43: the register of the neutral width holds a programmed raw value, which is never the suppressed-pulse
value. -/
theorem disabledIsNotNeutral : Obligations.DisabledIsNotNeutral := by
  intro s k rest hs hout hk hb
  obtain ⟨t, hexec, rfl, -, hreg⟩ := disableOutputsReleasesEveryChannel s rest hs hout hb
  have hneutral : pw 0 = 1500 := by decide
  obtain ⟨-, -, -, hpos, -⟩ := programmedRawIsNeverSuppressed s.cfg 0 hs.1
  refine ⟨_, _, outRaw s.cfg (pw 0), hexec, exec_setPwm_ok hs hk hb, ?_, ?_, rfl, rfl, hreg k.toNat hk, ?_,
    Nat.one_le_iff_ne_zero.1 hpos⟩
  · simp [hk]
  · rw [hneutral]
    simp [hout, hk]
  · exact regAfter_write_ok (transactionOf_setPwm hk 0) (j := 0) rfl s.bus

/-! ## A write of several values as a sequence of writes -/

/-- A write of no values says nothing of any register. -/
@[simp] theorem regStep_write_nil (r a : Nat) (k : FarReg) (x : BridgeAnswer) : regStep r k ⟨.write a [], x⟩ = k :=
  regStep_write_outside (by simp) k x

/-- A write of several values says of a register what the write of the first value and then the write of the others
say (20_memory.md R66). -/
theorem regStep_write_cons (r a v : Nat) (vs : List Nat) (k : FarReg) :
    regStep r k ⟨.write a (v :: vs), .ok⟩
      = regStep r (regStep r k ⟨.write a [v], .ok⟩) ⟨.write (a + 1) vs, .ok⟩ := by
  by_cases htail : a + 1 ≤ r ∧ r < a + 1 + vs.length
  · have hall : a ≤ r ∧ r < a + (v :: vs).length := by rw [List.length_cons]; omega
    rw [regStep_write_ok htail, regStep_write_ok hall, show r - a = (r - (a + 1)) + 1 by omega, List.getD_cons_succ]
  · rw [regStep_write_outside htail]
    by_cases hhead : r = a
    · subst hhead
      rw [regStep_write_ok (by simp), regStep_write_ok (by simp), Nat.sub_self, List.getD_cons_zero,
        List.getD_cons_zero]
    · have hall : ¬ (a ≤ r ∧ r < a + (v :: vs).length) := by rw [List.length_cons]; omega
      have hsingle : ¬ (a ≤ r ∧ r < a + [v].length) := by rw [List.length_singleton]; omega
      rw [regStep_write_outside hall, regStep_write_outside hsingle]

/-- One step that runs SET_PWM to channel `k`, answered `Ok`. -/
theorem step_setPwm_ok {s : State} {k : Nat} {v : BitVec 8} {frames : List Frame} {rest : List BridgeAnswer}
    (hs : Ready s) (hk : k < s.cfg.nOut) (hh : s.host = [0x20, BitVec.ofNat 8 k, v] :: frames)
    (hb : s.bridge = .ok :: rest) :
    step s = .next (respond .ok [] (setOut k [.driving (pw v)]
      (answered (.write (s.cfg.addrOutBase + k) [affineRaw s.cfg v]) .ok rest (frameTaken frames s)))) := by
  obtain ⟨-, -, -, ⟨-, hcount⟩, -⟩ := configRules hs.1
  have hbyte : (BitVec.ofNat 8 k).toNat = k := by rw [BitVec.toNat_ofNat, Nat.mod_eq_of_lt (by omega)]
  have hdecode : decode s.cfg.nOut [0x20, BitVec.ofNat 8 k, v] = .ok (.setPwm (BitVec.ofNat 8 k) v) :=
    decode_eq_ok_iff.2 ⟨rfl, rfl⟩
  rw [step_of_fetch_command (fetch_of_decode hs.1 hs.2 hh hdecode)]
  have hexec := exec_setPwm_ok (s := frameTaken frames s) (v := v) hs (hbyte.symm ▸ hk) hb
  rwa [hbyte] at hexec

/-- A run of SET_PWMs to the channels from `k` on, each answered `Ok`: the records are overlaid, the registers are known as
after one write of all the values, and each command issues one transaction. -/
theorem runSteps_setPwms (v : List (BitVec 8)) {s : State} (k : Nat) (hs : Ready s) (hk : k + v.length ≤ s.cfg.nOut)
    (hh : s.host = v.mapIdx fun j x => [0x20, BitVec.ofNat 8 (k + j), x])
    (hb : s.bridge = List.replicate v.length .ok) :
    ∃ u, runSteps v.length s = .next u
      ∧ u.out = overlay k (v.map fun x => .driving (pw x)) s.out
      ∧ (∀ r, regAfter u.bus r
          = regStep r (regAfter s.bus r) ⟨.write (s.cfg.addrOutBase + k) (v.map (affineRaw s.cfg)), .ok⟩)
      ∧ u.bus.length = s.bus.length + v.length := by
  induction v generalizing s k with
  | nil => exact ⟨s, rfl, rfl, fun r => (regStep_write_nil ..).symm, rfl⟩
  | cons x v ih =>
    rw [List.length_cons] at hk
    rw [List.mapIdx_cons] at hh
    have hstep := step_setPwm_ok hs (k := k) (by omega) hh hb
    obtain ⟨u, hrun, hout, hreg, hlen⟩ := ih (k + 1) (s := respond .ok [] (setOut k [.driving (pw x)]
      (answered (.write (s.cfg.addrOutBase + k) [affineRaw s.cfg x]) .ok (List.replicate v.length .ok)
        (frameTaken (v.mapIdx fun j y => [0x20, BitVec.ofNat 8 (k + (j + 1)), y]) s))))
      hs (by simp only [respond_cfg, setOut_cfg, answered_cfg, frameTaken_cfg]; omega)
      (by simp [Nat.add_assoc, Nat.add_comm 1]) rfl
    refine ⟨u, (runSteps_succ hstep).trans hrun, hout, fun r => ?_, ?_⟩
    · rw [hreg, List.map_cons, regStep_write_cons]
      simp [regAfter_append, Nat.add_assoc]
    · simp [hlen, Nat.add_assoc, Nat.add_comm 1]

/-- Settles O44: the one write and the sequence overlay the same records and say the same of every register. -/
theorem setPwmsEqualsSetPwmSequence : Obligations.SetPwmsEqualsSetPwmSequence := by
  intro s v hs _ hv
  obtain ⟨u, hrun, hout, hreg, hlen⟩ := runSteps_setPwms v
    (s := { s with
      host := v.mapIdx fun k x => [0x20, BitVec.ofNat 8 k, x]
      bridge := List.replicate s.cfg.nOut .ok })
    0 hs (by simp [hv]) (by simp) (by simp [hv])
  rw [hv] at hrun hlen
  refine ⟨_, u, exec_write_ok (s := { s with bridge := [.ok] }) hs (transactionOf_setPwms hv) rfl, hrun, hout.symm,
    fun k _ => ?_, by simp, hlen⟩
  rw [hreg]
  exact regAfter_append ..

/-! ## Writing twice -/

theorem overlay_overlay (k : Nat) (new out : List OutState) : overlay k new (overlay k new out) = overlay k new out := by
  apply List.ext_getElem?
  intro j
  by_cases hj : k ≤ j ∧ j < k + new.length ∧ j < out.length
  · rw [overlay_getElem?, overlay_length, if_pos hj, overlay_getElem?, if_pos hj]
  · rw [overlay_getElem?, overlay_length, if_neg hj]

/-- A transaction answered a second time in the same way says nothing new of any register (20_memory.md R75). -/
theorem regStep_regStep (r : Nat) (k : FarReg) (e : BusEvent) : regStep r (regStep r k e) e = regStep r k e := by
  obtain ⟨x, answer⟩ := e
  cases x with
  | read a n => rfl
  | write a vs =>
    by_cases hcov : a ≤ r ∧ r < a + vs.length
    · simp only [regStep, if_pos hcov]
    · simp only [regStep_write_outside hcov]

/-- Settles O45: the second run overlays the same records and adds the same event. -/
theorem repeatedWritesAreIdempotent : Obligations.RepeatedWritesAreIdempotent := by
  intro i s a vs rest hs hx hb
  refine ⟨_, _, exec_write_ok hs hx hb, exec_write_ok hs hx rfl, ⟨rfl, rfl, overlay_overlay ..⟩, fun r => ?_⟩
  simp only [respond_bus, setOut_bus, answered_bus, regAfter_append, regStep_regStep]

end Sys2Proof.Machine

/-! PROOFS of the statements on 42_tachometer.md. First the formulas of R183 and the rates that each tachometer command
answers; then the one whole next state of all four commands, from which each single command is read off; last
the ranges and signs of the formulas' intermediate values, from which R186 follows. -/

namespace Sys2Proof.Machine

/-! ## The formulas of R183 -/

section
variable (w : F64) (p : Nat) (tpr : Int) (d : F64)

theorem rpm64_eq_rpmFormula : rpm64 w p tpr = rpmFormula w p tpr := by
  obtain ⟨-, -, h60, -⟩ := constantsAreNearest
  rw [rpm64, rpmFormula, h60]
  rfl

theorem speed64_kmh : speed64 w p tpr d .kmh = kmhFormula w p tpr d := by
  obtain ⟨-, -, h60, h100, h1000⟩ := constantsAreNearest
  rw [speed64, kmhFormula, rpm64_eq_rpmFormula, ← h60, ← h100, ← h1000]
  rfl

end

theorem f64cMph_eq : f64cMph = f64OfRatio 621371 1000000 := constantsAreNearest.2.1

/-- Settles O52: for counted pulses the factor is that of the formula; for none, a product with `+0.0` is `+0.0`. -/
theorem mphIsKmhTimesTheFactor : Obligations.MphIsKmhTimesTheFactor := by
  intro w p tpr d
  rw [← f64cMph_eq]
  by_cases hp : p = 0
  · have hzero : f64Zero false = f64Mul (f64Zero false) f64cMph := by decide +kernel
    simpa only [speed64, if_pos hp] using hzero
  · simp only [speed64, if_neg hp]

theorem speed64_eq_speedFormula (w : F64) (p : Nat) (tpr : Int) (d : F64) (unit : Byte) :
    speed64 w p tpr d (unitNamed unit) = speedFormula w p tpr d unit := by
  rw [speedFormula, unitNamed]
  by_cases hp : p = 0
  · rw [speed64, if_pos hp, if_pos hp]
    rfl
  · rw [if_neg hp]
    by_cases hu : unit = 0x00
    · rw [if_pos hu, if_pos hu, speed64_kmh]
    · rw [if_neg hu, if_neg hu, mphIsKmhTimesTheFactor, speed64_kmh]

@[simp] theorem rpmFormula_zero (w : F64) (tpr : Int) : rpmFormula w 0 tpr = 0 := if_pos rfl

@[simp] theorem speedFormula_zero (w : F64) (tpr : Int) (d : F64) (unit : Byte) : speedFormula w 0 tpr d unit = 0 :=
  if_pos rfl

/-! ## What a tachometer command answers -/

/-- The rates that a tachometer command answers to the counts of its read, in channel order (42_tachometer.md R190 to
R193). -/
def ratesAnswered (c : Config) (vs : List Nat) : Instr → List F64
  | .readTach ch => vs.map fun p => rpmFormula c.wTach p (tprNamed c ch)
  | .readTachs => (vs.zip c.tprCfg.toList).map fun x => rpmFormula c.wTach x.1 x.2
  | .readSpeed _ unit tpr dia => vs.map fun p => speedFormula c.wTach p tpr.toInt dia unit
  | .readSpeeds unit tpr dia => vs.map fun p => speedFormula c.wTach p tpr.toInt dia unit
  | .readPwm _ => []
  | .readPwms => []
  | .setPwm _ _ => []
  | .setPwms _ => []
  | .disableOutputs => []

theorem afterRead_tachometer {i : Instr} (hi : isTachometerCommand i = true) (vs : List Nat) (u : State) :
    afterRead i vs u = .next (respond .ok ((ratesAnswered u.cfg vs i).flatMap f64Bytes) u) := by
  cases i <;> simp only [isTachometerCommand, Bool.false_eq_true] at hi
  all_goals
    simp only [afterRead, ratesAnswered, rpm64_eq_rpmFormula, speed64_eq_speedFormula, f64Record_eq, List.flatMap_map]

/-- A tachometer command answered with counts that 20_memory.md R62 allows: the whole next state. -/
theorem exec_tachometer_values {i : Instr} {s : State} {a n : Nat} {vs : List Nat} {rest : List BridgeAnswer}
    (hs : Ready s) (hi : isTachometerCommand i = true) (hx : transactionOf s.cfg i = some (.read a n))
    (hb : s.bridge = .values vs :: rest) (hn : vs.length = n) (hvs : ∀ v ∈ vs, v < 2 ^ s.cfg.rawW) :
    exec i s = .next { s with
      bridge := rest
      bus := s.bus ++ [⟨.read a n, .values vs⟩]
      responses := s.responses ++ [(0x00 : Byte) :: (ratesAnswered s.cfg vs i).flatMap f64Bytes] } := by
  rw [exec_of_read hs hx, readBridge_values hb hn hvs, afterRead_tachometer hi]
  rfl

/-! ## The transaction of each command -/

section
variable {c : Config}

theorem transactionOf_readTach {ch : Byte} (hch : ch.toNat < nTach) (htpr : 0 < c.tprCfg[ch.toNat]) :
    transactionOf c (.readTach ch) = some (.read (c.addrTachBase + ch.toNat) 1) := by
  rw [← tprNamed_eq c ch hch, tprNamed] at htpr
  refine transactionOf_eq_some.2 ⟨rfl, ?_, rfl⟩
  simp only [inputError, Bool.or_eq_false_iff, decide_eq_false_iff_not]
  exact ⟨Nat.not_le.2 hch, htpr.not_ge⟩

theorem transactionOf_readTachs (h0 : 0 < c.tprCfg[0]) (h1 : 0 < c.tprCfg[1]) :
    transactionOf c .readTachs = some (.read c.addrTachBase 2) := by
  refine transactionOf_eq_some.2 ⟨rfl, ?_, rfl⟩
  simp only [inputError, Bool.or_eq_false_iff, decide_eq_false_iff_not]
  exact ⟨h0.not_ge, h1.not_ge⟩

variable {unit : Byte} {tpr : BitVec 32} {dia : F64}

theorem transactionOf_readSpeeds (hunit : unit = 0x00 ∨ unit = 0x01) (htpr : 0 < tpr.toInt)
    (hdia : positiveFinite dia = true) :
    transactionOf c (.readSpeeds unit tpr dia) = some (.read c.addrTachBase 2) := by
  have hbad : badUnit unit = false := by rcases hunit with rfl | rfl <;> rfl
  exact transactionOf_eq_some.2 ⟨rfl, by simp [inputError, hbad, hdia, htpr], rfl⟩

theorem transactionOf_readSpeed {ch : Byte} (hch : ch.toNat < nTach) (hunit : unit = 0x00 ∨ unit = 0x01)
    (htpr : 0 < tpr.toInt) (hdia : positiveFinite dia = true) :
    transactionOf c (.readSpeed ch unit tpr dia) = some (.read (c.addrTachBase + ch.toNat) 1) := by
  have hbad : badUnit unit = false := by rcases hunit with rfl | rfl <;> rfl
  exact transactionOf_eq_some.2 ⟨rfl, by simpa [inputError, hbad, hdia, htpr] using hch, rfl⟩

end

/-! ## Each command answered -/

/-- Settles O47: one count and the channel's own configured ticks per revolution. -/
theorem readTachAnswersTheRpm : Obligations.ReadTachAnswersTheRpm := by
  intro ch hch s p rest hs htpr hb hp
  rw [exec_tachometer_values hs rfl (transactionOf_readTach hch htpr) hb rfl (by simpa using hp)]
  simp [ratesAnswered, tprNamed_eq s.cfg ch hch]

/-- Settles O48: the counts pair off with the configured ticks per revolution in channel order. -/
theorem readTachsAnswersBothRpms : Obligations.ReadTachsAnswersBothRpms := by
  intro s p q rest hs h0 h1 hb hp hq
  rw [exec_tachometer_values hs rfl (transactionOf_readTachs h0 h1) hb rfl (by simpa using ⟨hp, hq⟩)]
  simp [ratesAnswered, tprCfg_toList]

/-- Settles O49: one count and the operands of the command. -/
theorem readSpeedAnswersTheSpeed : Obligations.ReadSpeedAnswersTheSpeed := by
  intro ch unit tpr dia s p rest hs hch hunit htpr hdia hb hp
  rw [exec_tachometer_values hs rfl (transactionOf_readSpeed hch hunit htpr hdia) hb rfl (by simpa using hp)]
  simp [ratesAnswered]

/-- Settles O50: two counts and the same operands for both. -/
theorem readSpeedsAnswersBothSpeeds : Obligations.ReadSpeedsAnswersBothSpeeds := by
  intro unit tpr dia s p q rest hs hunit htpr hdia hb hp hq
  rw [exec_tachometer_values hs rfl (transactionOf_readSpeeds hunit htpr hdia) hb rfl (by simpa using ⟨hp, hq⟩)]
  simp [ratesAnswered]

/-! ## Zero pulses -/

theorem ratesAnswered_zeros {c : Config} {i : Instr} (hi : isTachometerCommand i = true) {a n : Nat}
    (hx : transactionOf c i = some (.read a n)) :
    ratesAnswered c (List.replicate n 0) i = List.replicate n 0 := by
  obtain ⟨-, -, ht⟩ := transactionOf_eq_some.1 hx
  cases i <;> simp only [isTachometerCommand, Bool.false_eq_true] at hi
  case readTachs =>
    obtain ⟨rfl, rfl⟩ := Transaction.read.inj ht
    simp [ratesAnswered, tprCfg_toList, List.replicate]
  all_goals simp [ratesAnswered]

/-- Settles O51: every rate of a zero count is `+0.0`, whose eight bytes are zero. -/
theorem zeroPulsesGiveZero : Obligations.ZeroPulsesGiveZero := by
  intro i s a n rest hs hi hx hb
  have hfit : ∀ v ∈ List.replicate n 0, v < 2 ^ s.cfg.rawW := fun v hv => by
    rw [List.eq_of_mem_replicate hv]
    positivity
  have hbytes : f64Bytes 0 = List.replicate 8 0x00 := by decide
  refine ⟨_, exec_tachometer_values hs hi hx hb List.length_replicate hfit, ?_⟩
  rw [ratesAnswered_zeros hi hx, List.flatMap_replicate, hbytes, List.flatten_replicate_replicate, Nat.mul_comm]

/-! ## The operators on finite values -/

/-- `Nat.shiftLeft_eq` with Mathlib's power, so that no power with a large exponent is evaluated to match the two. -/
theorem shiftLeft_eq_mul_two_pow (m e : Nat) : m <<< e = m * 2 ^ e := Nat.shiftLeft_eq m e

section
variable {x y : F64}

theorem f64IsNaN_of_finite (hx : f64IsFinite x = true) : f64IsNaN x = false := by
  simp_all [f64IsNaN, f64IsFinite]

theorem f64IsInf_of_finite (hx : f64IsFinite x = true) : f64IsInf x = false := by
  simp_all [f64IsInf, f64IsFinite]

theorem f64Mul_of_finite (hx : f64IsFinite x = true) (hy : f64IsFinite y = true) :
    f64Mul x y = f64Round (f64Sign x != f64Sign y) (f64Mag x * f64Mag y) (2 ^ 1074) := by
  rw [← one_mul (2 ^ 1074), ← shiftLeft_eq_mul_two_pow]
  simp [f64Mul, f64IsNaN_of_finite, f64IsInf_of_finite, hx, hy]

theorem f64Div_of_finite (hx : f64IsFinite x = true) (hy : f64IsFinite y = true) (h : f64Mag y ≠ 0) :
    f64Div x y = f64Round (f64Sign x != f64Sign y) (f64Mag x <<< 1074) (f64Mag y) := by
  simp [f64Div, f64IsNaN_of_finite, f64IsInf_of_finite, hx, hy, h]

end

/-! ## Ranges -/

/-- A finite positive value of at least `2^lo` and at most `2^hi` units of `2^-1074`. -/
structure Within (lo hi : Nat) (x : F64) : Prop where
  finite : f64IsFinite x = true
  sign : f64Sign x = false
  lower : 2 ^ lo ≤ f64Mag x
  upper : f64Mag x ≤ 2 ^ hi

theorem representable_two_pow (e : Nat) : Representable (2 ^ e) := ⟨1, e, by omega, (Nat.one_mul _).symm⟩

/-- Rounding leaves a ratio between two powers of two. -/
theorem within_f64Round {lo hi num den : Nat} (hden : 0 < den) (hlower : 2 ^ lo * den ≤ num)
    (hupper : num ≤ 2 ^ hi * den) (hhi : hi < 2098) : Within lo hi (f64Round false num den) := by
  have hle := (roundMag_bounds (representable_two_pow hi) hden).2 hupper
  have hfin : roundMag num den < 2 ^ 2098 := hle.trans_lt (pow_lt_pow_right₀ one_lt_two hhi)
  have hmag := f64Mag_f64Round false num hden hfin
  exact {
    finite := (f64IsFinite_f64Round false num hden).2 hfin
    sign := f64Sign_f64Round false num hden
    lower := hmag ▸ (roundMag_bounds (representable_two_pow lo) hden).1 hlower
    upper := hmag ▸ hle }

theorem within_toF64 {lo hi n : Nat} (hlower : 2 ^ lo ≤ n) (hupper : n ≤ 2 ^ hi) (hhi : hi ≤ 53) :
    Within (lo + 1074) (hi + 1074) (toF64 n) := by
  rw [toF64, f64OfRatio, decide_eq_false (by omega), Int.natAbs_natCast]
  refine within_f64Round one_pos ?_ ?_ (by omega) <;> rw [Nat.mul_one, shiftLeft_eq_mul_two_pow, pow_add]
  · gcongr
  · gcongr

/-- Two products compare as the powers of two between them do. -/
theorem mul_le_mul_of_two_pow {a b c d m n m' n' : Nat} (hm : m ≤ 2 ^ a) (hn : n ≤ 2 ^ b) (h : a + b ≤ c + d)
    (hm' : 2 ^ c ≤ m') (hn' : 2 ^ d ≤ n') : m * n ≤ m' * n' :=
  calc m * n ≤ 2 ^ a * 2 ^ b := Nat.mul_le_mul hm hn
    _ = 2 ^ (a + b) := (pow_add ..).symm
    _ ≤ 2 ^ (c + d) := Nat.pow_le_pow_right two_pos h
    _ = 2 ^ c * 2 ^ d := pow_add ..
    _ ≤ m' * n' := Nat.mul_le_mul hm' hn'

section
variable {a b c d lo hi : Nat} {x y : F64}

theorem Within.mul (hx : Within a b x) (hy : Within c d y) (hlo : lo + 1074 ≤ a + c) (hhi : b + d ≤ hi + 1074)
    (h : hi < 2098) : Within lo hi (f64Mul x y) := by
  rw [f64Mul_of_finite hx.finite hy.finite, hx.sign, hy.sign]
  refine within_f64Round (by positivity) ?_ ?_ h
  · exact mul_le_mul_of_two_pow le_rfl le_rfl hlo hx.lower hy.lower
  · exact mul_le_mul_of_two_pow hx.upper hy.upper hhi le_rfl le_rfl

theorem Within.div (hx : Within a b x) (hy : Within c d y) (hlo : lo + d ≤ a + 1074) (hhi : b + 1074 ≤ hi + c)
    (h : hi < 2098) : Within lo hi (f64Div x y) := by
  have hpos : 0 < f64Mag y := hy.lower.trans_lt' (by positivity)
  rw [f64Div_of_finite hx.finite hy.finite hpos.ne', hx.sign, hy.sign, shiftLeft_eq_mul_two_pow]
  refine within_f64Round hpos ?_ ?_ h
  · exact mul_le_mul_of_two_pow le_rfl hy.upper hlo hx.lower le_rfl
  · exact mul_le_mul_of_two_pow hx.upper le_rfl hhi le_rfl hy.lower

end

theorem within_of_windowOk {w : F64} (h : windowOk w = true) : Within 1054 1094 w := by
  simp only [windowOk, Bool.and_eq_true, Bool.not_eq_true', decide_eq_true_eq, shiftLeft_eq_mul_two_pow, one_mul] at h
  obtain ⟨⟨⟨hfin, hsign⟩, hlower⟩, hupper⟩ := h
  exact ⟨hfin, hsign, hlower, hupper⟩

/-- RPM64 of a positive count lies between `2^-46` and `2^58` (42_tachometer.md R186). -/
theorem within_rpmFormula {w : F64} {p : Nat} {tpr : Int} (hw : windowOk w = true) (hp : p ≠ 0) (hp32 : p < 2 ^ 32)
    (htpr : 1 ≤ tpr) (htpr31 : tpr < 2 ^ 31) : Within 1028 1132 (rpmFormula w p tpr) := by
  obtain ⟨t, rfl⟩ := Int.eq_ofNat_of_zero_le (Int.le_of_lt htpr)
  have hcount : Within 1074 1106 (toF64 p) := within_toF64 (lo := 0) (hi := 32) (by omega) (by omega) (by omega)
  have hticks : Within 1074 1105 (toF64 t) := within_toF64 (lo := 0) (hi := 31) (by omega) (by omega) (by omega)
  have hsixty : Within 1079 1080 (toF64 60) :=
    within_toF64 (lo := 5) (hi := 6) (n := 60) (by omega) (by omega) (by omega)
  have hturns : Within 1043 1106 (f64Div (toF64 p) (toF64 t)) := hcount.div hticks (by omega) (by omega) (by omega)
  have hwindows : Within 1059 1100 (f64Div (toF64 60) w) :=
    hsixty.div (within_of_windowOk hw) (by omega) (by omega) (by omega)
  rw [rpmFormula, if_neg hp]
  exact hturns.mul hwindows (by omega) (by omega) (by omega)

/-! ## Signs -/

/-- A value that is no NaN and has sign 0: a finite one or `+inf`. -/
structure NonNegative (x : F64) : Prop where
  notNaN : f64IsNaN x = false
  sign : f64Sign x = false

/-- A finite value greater than zero. -/
structure Positive (x : F64) : Prop where
  finite : f64IsFinite x = true
  sign : f64Sign x = false
  mag_ne_zero : f64Mag x ≠ 0

theorem Within.positive {lo hi : Nat} {x : F64} (h : Within lo hi x) : Positive x :=
  ⟨h.finite, h.sign, (h.lower.trans_lt' (by positivity)).ne'⟩

theorem positive_of_diaOk {d : F64} (h : diaOk d = true) : Positive d := by
  simp only [diaOk, Bool.and_eq_true, Bool.not_eq_true', bne_iff_ne] at h
  obtain ⟨⟨hfin, hsign⟩, hmag⟩ := h
  exact ⟨hfin, hsign, hmag⟩

theorem positive_toF64 {n : Nat} (h : 1 ≤ n) (hn : n ≤ 2 ^ 53) : Positive (toF64 n) :=
  (within_toF64 (lo := 0) h hn le_rfl).positive

theorem nonNegative_f64Round (num : Nat) {den : Nat} (hden : 0 < den) : NonNegative (f64Round false num den) :=
  ⟨f64IsNaN_f64Round false num hden, f64Sign_f64Round false num hden⟩

theorem nonNegative_f64Inf : NonNegative (f64Inf false) := ⟨by decide, by decide⟩

section
variable {x y : F64}

theorem Positive.nonNegative (h : Positive x) : NonNegative x := ⟨f64IsNaN_of_finite h.finite, h.sign⟩

theorem not_finite_of_isInf (h : f64IsInf x = true) : f64IsFinite x = false := by
  simp_all [f64IsInf, f64IsFinite]

theorem finite_of_not_inf (hx : f64IsNaN x = false) (h : f64IsInf x = false) : f64IsFinite x = true := by
  simp_all [f64IsInf, f64IsFinite, f64IsNaN]

/-- A product in which no zero meets an infinity is a rounded one or `+inf`. -/
theorem NonNegative.mul_of_mag_ne_zero (hx : NonNegative x) (hy : NonNegative y)
    (hmeet : f64IsInf x = true → f64Mag y ≠ 0) (hmeet' : f64IsInf y = true → f64Mag x ≠ 0) :
    NonNegative (f64Mul x y) := by
  by_cases hinf : f64IsInf x = true ∨ f64IsInf y = true
  · have hprod : f64Mul x y = f64Inf false := by
      rcases hinf with h | h
      · simp [f64Mul, hx.notNaN, hy.notNaN, hx.sign, hy.sign, h, not_finite_of_isInf, hmeet]
      · simp [f64Mul, hx.notNaN, hy.notNaN, hx.sign, hy.sign, h, not_finite_of_isInf, hmeet']
    exact hprod ▸ nonNegative_f64Inf
  · simp only [not_or, Bool.not_eq_true] at hinf
    obtain ⟨hxinf, hyinf⟩ := hinf
    rw [f64Mul_of_finite (finite_of_not_inf hx.notNaN hxinf) (finite_of_not_inf hy.notNaN hyinf), hx.sign, hy.sign]
    exact nonNegative_f64Round _ (by positivity)

theorem NonNegative.mul (hx : NonNegative x) (hy : Positive y) : NonNegative (f64Mul x y) :=
  hx.mul_of_mag_ne_zero hy.nonNegative (fun _ => hy.mag_ne_zero) fun h => by
    simp [f64IsInf_of_finite hy.finite] at h

theorem Positive.mul (hx : Positive x) (hy : NonNegative y) : NonNegative (f64Mul x y) :=
  hx.nonNegative.mul_of_mag_ne_zero hy (fun h => by simp [f64IsInf_of_finite hx.finite] at h) fun _ => hx.mag_ne_zero

theorem NonNegative.div (hx : NonNegative x) (hy : Positive y) : NonNegative (f64Div x y) := by
  cases hinf : f64IsInf x with
  | false =>
    rw [f64Div_of_finite (finite_of_not_inf hx.notNaN hinf) hy.finite hy.mag_ne_zero, hx.sign, hy.sign]
    exact nonNegative_f64Round _ (Nat.pos_of_ne_zero hy.mag_ne_zero)
  | true =>
    have hquot : f64Div x y = f64Inf false := by
      simp [f64Div, hx.notNaN, hx.sign, hinf, f64IsNaN_of_finite hy.finite, f64IsInf_of_finite hy.finite, hy.sign]
    exact hquot ▸ nonNegative_f64Inf

end

theorem positive_pi64 : Positive pi64 := ⟨by decide, by decide, by decide +kernel⟩

theorem positive_f64cMph : Positive f64cMph := ⟨by decide, by decide, by decide +kernel⟩

theorem nonNegative_zero : NonNegative 0 := ⟨by decide, by decide⟩

/-- The products and quotients of R183 in their order: infinities come from the diameter alone and meet positive finite
values only. -/
theorem nonNegative_kmhFormula {w : F64} {p : Nat} {tpr : Int} {d : F64}
    (hrpm : p ≠ 0 → Positive (rpmFormula w p tpr)) (hd : Positive d) : NonNegative (kmhFormula w p tpr d) := by
  have h60 : Positive (toF64 60) := positive_toF64 (n := 60) (by omega) (by omega)
  have h100 : Positive (toF64 100) := positive_toF64 (n := 100) (by omega) (by omega)
  have h1000 : Positive (toF64 1000) := positive_toF64 (n := 1000) (by omega) (by omega)
  rw [kmhFormula]
  split
  next => exact nonNegative_zero
  next hp =>
    have hmetres : NonNegative (f64Div (f64Mul pi64 d) (toF64 100)) := (positive_pi64.mul hd.nonNegative).div h100
    exact (((hrpm hp).mul hmetres).mul h60).div h1000

/-- Settles O53: RPM64 by its range, SPEED64 by the signs of its intermediate values. -/
theorem ratesAreNeverNaN : Obligations.RatesAreNeverNaN := by
  intro w p tpr d u hw hp32 htpr htpr31 hd
  have hrpm : p ≠ 0 → Positive (rpmFormula w p tpr) := fun hp => (within_rpmFormula hw hp hp32 htpr htpr31).positive
  have hkmh : NonNegative (kmhFormula w p tpr d) := nonNegative_kmhFormula hrpm (positive_of_diaOk hd)
  rw [rpm64_eq_rpmFormula]
  constructor
  · by_cases hp : p = 0
    · rw [hp, rpmFormula_zero]
      decide
    · exact ⟨(hrpm hp).finite, (hrpm hp).sign, iff_of_false (hrpm hp).mag_ne_zero hp⟩
  · rw [← speed64_kmh] at hkmh
    cases u with
    | kmh => exact ⟨hkmh.notNaN, hkmh.sign⟩
    | mph =>
      have hmph := hkmh.mul positive_f64cMph
      rw [f64cMph_eq, ← mphIsKmhTimesTheFactor] at hmph
      exact ⟨hmph.notNaN, hmph.sign⟩

end Sys2Proof.Machine

/-! PROOFS of the statements on 60_exceptions.md. First the frame that spells no command (R221): what the fetch makes of
it is the whole step. Then the status of a command's response, which is INPUT_ERROR for none but the causes of R222. -/

namespace Sys2Proof.Machine

/-! ## Illegal frames -/

theorem fetch_of_decode_error {s : State} {f : Frame} {rest : List Frame} {e : Illegal} (hc : ConfigOk s.cfg)
    (hp : s.pending = none) (hh : s.host = f :: rest) (hd : decode s.cfg.nOut f = .error e) :
    fetch s = .illegal (respond .illegal [] (frameTaken rest s)) := by
  simp only [fetch, hp, hh, if_pos hc, hd]

theorem step_of_fetch_illegal {s t : State} (h : fetch s = .illegal t) : step s = .next t := by
  simp only [step, h]

/-- Settles O7, through what the fetch takes. -/
theorem illegalFrameOnlyAnswers : Obligations.IllegalFrameOnlyAnswers := by
  intro s f rest e hc hp hh hd
  exact step_of_fetch_illegal (fetch_of_decode_error hc hp hh hd)

/-! ## Invalid operands -/

theorem statusByte_eq_inputError {st : Status} : statusByte st = 0x02 ↔ st = .inputError := by
  cases st <;> decide

/-- With none of the causes of 60_exceptions.md R222, a command waits without a response or answers with another status:
what ends it before its transaction is then the operand count of SET_PWMS, which is ILLEGAL (log 14). -/
theorem exec_status_ne_inputError {i : Instr} {s t : State} (h : exec i s = .next t)
    (hvalid : inputError s.cfg i = false) :
    t.responses = s.responses
      ∨ ∃ st payload, st ≠ .inputError ∧ t.responses = s.responses ++ [statusByte st :: payload] := by
  obtain ⟨hs, ⟨hx, -⟩ | ⟨x, -, -, rfl⟩ | ⟨a, n, rest, -, -, rfl⟩ | ⟨a, n, vs, rest, hx, -, hl, -, ht⟩ |
    ⟨a, raws, rest, -, -, rfl⟩ | ⟨a, raws, rest, -, -, rfl⟩⟩ := exec_eq_next h
  · have hw : i.wellFormed s.cfg.nOut = false := (transactionOf_eq_none.1 hx).resolve_right (by simp [hvalid])
    rw [exec_of_illFormed hs hw] at h
    cases h
    exact .inr ⟨.illegal, [], nofun, rfl⟩
  · exact .inl rfl
  · exact .inr ⟨.busError, [], nofun, rfl⟩
  · obtain ⟨payload, -, heq⟩ := afterRead_eq_next (u := answered (.read a n) (.values vs) rest s) hx hl ht
    exact .inr ⟨.ok, payload, nofun, by rw [heq]; rfl⟩
  · exact .inr ⟨.busError, [], nofun, rfl⟩
  · exact .inr ⟨.ok, [], nofun, rfl⟩

/-- Settles O25: each cause ends the command at once, and without a cause no response carries the status. -/
theorem inputErrorOnlyAnswers : Obligations.InputErrorOnlyAnswers := by
  intro i s hs
  refine ⟨exec_of_inputError hs, fun t h hr => ?_⟩
  by_contra hno
  rcases exec_status_ne_inputError h (Bool.eq_false_of_not_eq_true hno) with hnone | ⟨st, payload, hst, hsome⟩
  · simp [hr] at hnone
  · obtain ⟨hbyte, -⟩ : 0x02 = statusByte st ∧ [] = payload := by simpa [hr] using hsome
    exact hst (statusByte_eq_inputError.1 hbyte.symm)

end Sys2Proof.Machine

/-! PROOFS of the statements on 70_reset_and_hazards.md. First the block with nothing to do (R253), whose fetch finds
neither a command nor a frame; then the command issued while another is in progress (R257), which no command accepts. -/

namespace Sys2Proof.Machine

/-! ## Waiting for the host -/

theorem fetch_of_no_frame {s : State} (hp : s.pending = none) (hh : s.host = []) : fetch s = .idle := by
  simp only [fetch, hp, hh]

theorem step_of_fetch_idle {s : State} (h : fetch s = .idle) : step s = .next s := by
  simp only [step, h]

/-- Settles O6, through what the fetch takes in either case. -/
theorem stepIdlesOrResumes : Obligations.StepIdlesOrResumes := by
  intro s
  constructor
  · intro hp hh
    exact step_of_fetch_idle (fetch_of_no_frame hp hh)
  · intro p hp
    exact step_of_fetch_command (fetch_of_pending hp)

/-! ## A command in progress -/

/-- Every command has to be accepted first, which it is not while another is in progress (20_memory.md R71; log 9). -/
theorem exec_of_pending {s : State} {p : Pending} (hc : ConfigOk s.cfg) (hp : s.pending = some p) (i : Instr) :
    exec i s = .refused .commandInProgress := by
  cases i <;> exact accepted_of_pending hc hp _

/-- Settles O10, by the refusal common to all commands. -/
theorem commandInProgressRefused : Obligations.CommandInProgressRefused := by
  intro s p i hc hp
  exact exec_of_pending hc hp i

end Sys2Proof.Machine
